-- ==== Sys2Proof/Word.lean ====
section
/-! DEFINITION. The word types of the core (00_scope.md R5, R7, R8): every value is unsigned and bit 0 is the least
significant. -/

namespace Sys2Proof

/-- A byte: a general register, a timer, a memory cell, an immediate NN (R5). -/
abbrev Byte := BitVec 8

/-- A 16-bit value: an instruction word, PC, I, a stack entry (R5). -/
abbrev Word := BitVec 16

/-- A 12-bit address NNN (R81). -/
abbrev Addr := BitVec 12

/-- A general register's number, 0 to 15 (R23): a 4-bit field cannot name another. -/
abbrev Reg := Fin 16

end Sys2Proof
end

