-- ==== Sys2Proof/Config.lean ====
section
/-! DEFINITION. What an implementation fixes (00_scope.md R6): the types of the four parameters that are plain data,
and RNG, which is a free value. The values the parameters have at State.reset stand in Machine/Params.lean. -/

namespace Sys2Proof

/-- What VF holds after 8XY4, 8XY5, 8XY6, 8XY7 or 8XYE with X = F: the result, or the flag (R6, R171). -/
inductive VfDest where
  | result
  | flag
  deriving DecidableEq, Repr

/-- What a byte address at or above 0x1000 does: it wraps to its low 12 bits, or it is an ADDRESS_FAULT (R6, R63). -/
inductive AddressPolicy where
  | wrap
  | fault
  deriving DecidableEq, Repr

/-- The parameters of R6 that are data. A state carries them (State.params, log 1) and no operation writes them, so a
statement about every state is about every value of every parameter. -/
structure Params where
  /-- VF_DEST. -/
  vfDest : VfDest
  /-- ADDRESS_POLICY. -/
  addressPolicy : AddressPolicy
  /-- FONT_BASE, the address of the font glyph table. -/
  fontBase : Addr
  /-- FONT, 16 characters of 5 bytes each: FONT[5c + r] of R27 is byte r of glyph c. -/
  font : Vector (Vector Byte 5) 16
  deriving DecidableEq, Repr

/-- The font table lies in the reserved region 0x000 to 0x1FF (R5, R27, R61). -/
abbrev Params.wf (p : Params) : Prop := p.fontBase.toNat + 80 ≤ 0x200

/-- RNG (R6, R34, R197): the byte of the n-th draw. A FREE VALUE (log 5): it has no body, so whatever is proved holds
for every source of bytes. -/
opaque Config.rngByte : Nat → Byte

end Sys2Proof
end

