-- ==== Sys2Proof/Syntax.lean ====
section
/-! DEFINITION. The 23 instructions (30_encoding.md R90), one constructor per row of spec/opcode_table.json, with the
operand fields the decoder gives each of them (R91). -/

namespace Sys2Proof

inductive Instr where
  /-- `00E0` CLS (R220). -/
  | cls
  /-- `00EE` RET (R130). -/
  | ret
  /-- `1NNN` JP addr (R131). -/
  | jpAddr (nnn : Addr)
  /-- `2NNN` CALL addr (R132). -/
  | callAddr (nnn : Addr)
  /-- `3XNN` SE Vx,NN (R151). -/
  | seVxNN (x : Reg) (nn : Byte)
  /-- `4XNN` SNE Vx,NN (R152). -/
  | sneVxNN (x : Reg) (nn : Byte)
  /-- `5XY0` SE Vx,Vy (R153). -/
  | seVxVy (x y : Reg)
  /-- `6XNN` LD Vx,NN (R175). -/
  | ldVxNN (x : Reg) (nn : Byte)
  /-- `7XNN` ADD Vx,NN (R176). -/
  | addVxNN (x : Reg) (nn : Byte)
  /-- `8XY0` LD Vx,Vy (R177). -/
  | ldVxVy (x y : Reg)
  /-- `8XY1` OR Vx,Vy (R178). -/
  | orVxVy (x y : Reg)
  /-- `8XY2` AND Vx,Vy (R179). -/
  | andVxVy (x y : Reg)
  /-- `8XY3` XOR Vx,Vy (R180). -/
  | xorVxVy (x y : Reg)
  /-- `8XY4` ADD Vx,Vy (R182). -/
  | addVxVy (x y : Reg)
  /-- `8XY5` SUB Vx,Vy (R183). -/
  | subVxVy (x y : Reg)
  /-- `8XY6` SHR Vx (R184). The Y field is decoded and not used (R94). -/
  | shrVx (x y : Reg)
  /-- `8XY7` SUBN Vx,Vy (R185). -/
  | subnVxVy (x y : Reg)
  /-- `8XYE` SHL Vx (R186). The Y field is decoded and not used (R94). -/
  | shlVx (x y : Reg)
  /-- `9XY0` SNE Vx,Vy (R154). -/
  | sneVxVy (x y : Reg)
  /-- `ANNN` LD I,addr (R195). -/
  | ldIAddr (nnn : Addr)
  /-- `BNNN` JP V0,addr (R133). -/
  | jpV0Addr (nnn : Addr)
  /-- `CXNN` RND Vx,NN (R197). -/
  | rndVxNN (x : Reg) (nn : Byte)
  /-- `DXYN` DRW Vx,Vy,N (R222): N is a count of rows. -/
  | drwVxVyN (x y : Reg) (n : Nat)
  deriving DecidableEq, Repr

end Sys2Proof
end

