-- ==== Sys2Proof/WellFormed.lean ====
section
/-! DEFINITION. Which instructions have an encoding. Register numbers, NN and NNN are bounded by their types (R23, R83);
the one bound left to check is DRW's row count, "an unsigned count 0 to 15" (30_encoding.md R83). -/

namespace Sys2Proof

/-- R83: N fits its 4-bit field. -/
def rowCountOk (n : Nat) : Bool := n < 16

/-- The instruction's operands fit the fields of its encoding (R81, R83). -/
def Instr.wellFormed : Instr → Bool
  | .drwVxVyN _ _ n => rowCountOk n
  | .cls | .ret => true
  | .jpAddr _ | .callAddr _ | .ldIAddr _ | .jpV0Addr _ => true
  | .seVxNN _ _ | .sneVxNN _ _ | .ldVxNN _ _ | .addVxNN _ _ | .rndVxNN _ _ => true
  | .seVxVy _ _ | .sneVxVy _ _ | .ldVxVy _ _ | .orVxVy _ _ | .andVxVy _ _ | .xorVxVy _ _ => true
  | .addVxVy _ _ | .subVxVy _ _ | .shrVx _ _ | .subnVxVy _ _ | .shlVx _ _ => true

/-- The instruction is well-formed. -/
abbrev WellFormed (i : Instr) : Prop := i.wellFormed = true

end Sys2Proof
end

