-- ==== Sys2Proof/Decode.lean ====
section
/-! DEFINITION. The decoder (30_encoding.md R81, R82, R91, R93 to R95), total on any bytes, and after it the encoder,
the opcode table of R90 and the assembler's spelling of an instruction (R97). -/

namespace Sys2Proof

/-- Why a word selects no instruction: the spaces of R95, by name. -/
inductive Unknown where
  /-- `0NNN` other than 0x00E0 and 0x00EE, 0x0000 included. -/
  | class0
  /-- `5XYn` with n not 0. -/
  | seLowNibble
  /-- `8XYn` with n in 8 to D, or F. -/
  | aluSubOp
  /-- `9XYn` with n not 0. -/
  | sneLowNibble
  /-- `EXxx`, all of them. -/
  | classE
  /-- `FXxx`, all of them. -/
  | classF
  /-- Fewer than two bytes were given to `decodeBytes`; no fetch gives so few. -/
  | tooShort
  deriving DecidableEq, Repr

/-- What a word decodes to: an instruction with its operands, or UNKNOWN as the variant's last arm (R91). -/
inductive Decoded where
  | instr (i : Instr)
  | unknown (why : Unknown)
  deriving DecidableEq, Repr

/-- The instruction, where there is one. -/
def Decoded.toInstr : Decoded → Option Instr
  | .instr i => some i
  | .unknown _ => none

/-- The class field, w[15:12] (R82). -/
def fieldClass (w : Word) : Nat := (w.extractLsb' 12 4).toNat

/-- The X field, w[11:8] (R82). -/
def fieldX (w : Word) : Reg := (w.extractLsb' 8 4).toFin

/-- The Y field, w[7:4] (R82). -/
def fieldY (w : Word) : Reg := (w.extractLsb' 4 4).toFin

/-- The N field, w[3:0], an unsigned count (R82, R83). -/
def fieldN (w : Word) : Nat := (w.extractLsb' 0 4).toNat

/-- The NN field, w[7:0] (R82). -/
def fieldNN (w : Word) : Byte := w.extractLsb' 0 8

/-- The NNN field, w[11:0] (R82). -/
def fieldNNN (w : Word) : Addr := w.extractLsb' 0 12

/-- Class 8: the low nibble selects the operation (R91). -/
def decodeAlu (x y : Reg) (sub : Nat) : Decoded :=
  match sub with
  | 0x0 => .instr (.ldVxVy x y)
  | 0x1 => .instr (.orVxVy x y)
  | 0x2 => .instr (.andVxVy x y)
  | 0x3 => .instr (.xorVxVy x y)
  | 0x4 => .instr (.addVxVy x y)
  | 0x5 => .instr (.subVxVy x y)
  | 0x6 => .instr (.shrVx x y)
  | 0x7 => .instr (.subnVxVy x y)
  | 0xE => .instr (.shlVx x y)
  | _ => .unknown .aluSubOp

/-- The decode function of R91, total over every word; fixed nibbles are matched strictly (R93). -/
def decode (w : Word) : Decoded :=
  match fieldClass w with
  | 0x0 =>
    if w = 0x00E0#16 then .instr .cls
    else if w = 0x00EE#16 then .instr .ret
    else .unknown .class0
  | 0x1 => .instr (.jpAddr (fieldNNN w))
  | 0x2 => .instr (.callAddr (fieldNNN w))
  | 0x3 => .instr (.seVxNN (fieldX w) (fieldNN w))
  | 0x4 => .instr (.sneVxNN (fieldX w) (fieldNN w))
  | 0x5 => if fieldN w = 0 then .instr (.seVxVy (fieldX w) (fieldY w)) else .unknown .seLowNibble
  | 0x6 => .instr (.ldVxNN (fieldX w) (fieldNN w))
  | 0x7 => .instr (.addVxNN (fieldX w) (fieldNN w))
  | 0x8 => decodeAlu (fieldX w) (fieldY w) (fieldN w)
  | 0x9 => if fieldN w = 0 then .instr (.sneVxVy (fieldX w) (fieldY w)) else .unknown .sneLowNibble
  | 0xA => .instr (.ldIAddr (fieldNNN w))
  | 0xB => .instr (.jpV0Addr (fieldNNN w))
  | 0xC => .instr (.rndVxNN (fieldX w) (fieldNN w))
  | 0xD => .instr (.drwVxVyN (fieldX w) (fieldY w) (fieldN w))
  | 0xE => .unknown .classE
  | _ => .unknown .classF

/-- Two bytes as one word, big-endian: the byte at the lower address is bits 15:8 (R62). -/
def wordOfBytes (hi lo : Byte) : Word := hi ++ lo

/-- The two bytes of a word in the order they lie in memory (R62). -/
def bytesOfWord (w : Word) : List Byte := [w.extractLsb' 8 8, w.extractLsb' 0 8]

/-- The decoder on bytes as they lie in memory: it reads the first two (R80: every instruction is one word). -/
def decodeBytes : List Byte → Decoded
  | hi :: lo :: _ => decode (wordOfBytes hi lo)
  | _ => .unknown .tooShort

/-- A register number as its 4-bit field. -/
def regField (x : Reg) : BitVec 4 := BitVec.ofFin x

/-- A word of formats `FIX` and `NNN`: class and address (R84). -/
def wordNNN (cls : BitVec 4) (nnn : Addr) : Word := cls ++ nnn

/-- A word of format `XNN` (R84). -/
def wordXNN (cls : BitVec 4) (x : Reg) (nn : Byte) : Word := cls ++ regField x ++ nn

/-- A word of formats `XYS` and `XYN`: the low nibble is the sub-operation or N (R84). -/
def wordXYN (cls : BitVec 4) (x y : Reg) (n : BitVec 4) : Word := cls ++ regField x ++ regField y ++ n

/-- The encoder: the word of a well-formed instruction, from the patterns of R90. -/
def encode : Instr → Word
  | .cls => 0x00E0#16
  | .ret => 0x00EE#16
  | .jpAddr nnn => wordNNN 0x1#4 nnn
  | .callAddr nnn => wordNNN 0x2#4 nnn
  | .seVxNN x nn => wordXNN 0x3#4 x nn
  | .sneVxNN x nn => wordXNN 0x4#4 x nn
  | .seVxVy x y => wordXYN 0x5#4 x y 0x0#4
  | .ldVxNN x nn => wordXNN 0x6#4 x nn
  | .addVxNN x nn => wordXNN 0x7#4 x nn
  | .ldVxVy x y => wordXYN 0x8#4 x y 0x0#4
  | .orVxVy x y => wordXYN 0x8#4 x y 0x1#4
  | .andVxVy x y => wordXYN 0x8#4 x y 0x2#4
  | .xorVxVy x y => wordXYN 0x8#4 x y 0x3#4
  | .addVxVy x y => wordXYN 0x8#4 x y 0x4#4
  | .subVxVy x y => wordXYN 0x8#4 x y 0x5#4
  | .shrVx x y => wordXYN 0x8#4 x y 0x6#4
  | .subnVxVy x y => wordXYN 0x8#4 x y 0x7#4
  | .shlVx x y => wordXYN 0x8#4 x y 0xE#4
  | .sneVxVy x y => wordXYN 0x9#4 x y 0x0#4
  | .ldIAddr nnn => wordNNN 0xA#4 nnn
  | .jpV0Addr nnn => wordNNN 0xB#4 nnn
  | .rndVxNN x nn => wordXNN 0xC#4 x nn
  | .drwVxVyN x y n => wordXYN 0xD#4 x y (BitVec.ofNat 4 n)

/-- The instruction's bytes as they lie in memory. -/
def encodeBytes (i : Instr) : List Byte := bytesOfWord (encode i)

/-- A row of R90's table: a word selects it when `w AND mask = match`. -/
structure OpcodeRow where
  mnemonic : String
  pattern : Word
  mask : Word
  deriving DecidableEq, Repr

/-- A word selects a row (R90). -/
def OpcodeRow.selects (r : OpcodeRow) (w : Word) : Bool := w &&& r.mask == r.pattern

/-- The row of R90 that an instruction stands for. -/
def opcodeRow : Instr → OpcodeRow
  | .cls => ⟨"CLS", 0x00E0#16, 0xFFFF#16⟩
  | .ret => ⟨"RET", 0x00EE#16, 0xFFFF#16⟩
  | .jpAddr _ => ⟨"JP_addr", 0x1000#16, 0xF000#16⟩
  | .callAddr _ => ⟨"CALL_addr", 0x2000#16, 0xF000#16⟩
  | .seVxNN _ _ => ⟨"SE_Vx_NN", 0x3000#16, 0xF000#16⟩
  | .sneVxNN _ _ => ⟨"SNE_Vx_NN", 0x4000#16, 0xF000#16⟩
  | .seVxVy _ _ => ⟨"SE_Vx_Vy", 0x5000#16, 0xF00F#16⟩
  | .ldVxNN _ _ => ⟨"LD_Vx_NN", 0x6000#16, 0xF000#16⟩
  | .addVxNN _ _ => ⟨"ADD_Vx_NN", 0x7000#16, 0xF000#16⟩
  | .ldVxVy _ _ => ⟨"LD_Vx_Vy", 0x8000#16, 0xF00F#16⟩
  | .orVxVy _ _ => ⟨"OR_Vx_Vy", 0x8001#16, 0xF00F#16⟩
  | .andVxVy _ _ => ⟨"AND_Vx_Vy", 0x8002#16, 0xF00F#16⟩
  | .xorVxVy _ _ => ⟨"XOR_Vx_Vy", 0x8003#16, 0xF00F#16⟩
  | .addVxVy _ _ => ⟨"ADD_Vx_Vy", 0x8004#16, 0xF00F#16⟩
  | .subVxVy _ _ => ⟨"SUB_Vx_Vy", 0x8005#16, 0xF00F#16⟩
  | .shrVx _ _ => ⟨"SHR_Vx", 0x8006#16, 0xF00F#16⟩
  | .subnVxVy _ _ => ⟨"SUBN_Vx_Vy", 0x8007#16, 0xF00F#16⟩
  | .shlVx _ _ => ⟨"SHL_Vx", 0x800E#16, 0xF00F#16⟩
  | .sneVxVy _ _ => ⟨"SNE_Vx_Vy", 0x9000#16, 0xF00F#16⟩
  | .ldIAddr _ => ⟨"LD_I_addr", 0xA000#16, 0xF000#16⟩
  | .jpV0Addr _ => ⟨"JP_V0_addr", 0xB000#16, 0xF000#16⟩
  | .rndVxNN _ _ => ⟨"RND_Vx_NN", 0xC000#16, 0xF000#16⟩
  | .drwVxVyN _ _ _ => ⟨"DRW_Vx_Vy_N", 0xD000#16, 0xF000#16⟩

/-- The table of R90, in its order. -/
def opcodeTable : List OpcodeRow :=
  [opcodeRow .cls, opcodeRow .ret, opcodeRow (.jpAddr 0), opcodeRow (.callAddr 0), opcodeRow (.seVxNN 0 0),
   opcodeRow (.sneVxNN 0 0), opcodeRow (.seVxVy 0 0), opcodeRow (.ldVxNN 0 0), opcodeRow (.addVxNN 0 0)] ++
  [opcodeRow (.ldVxVy 0 0), opcodeRow (.orVxVy 0 0), opcodeRow (.andVxVy 0 0), opcodeRow (.xorVxVy 0 0),
   opcodeRow (.addVxVy 0 0), opcodeRow (.subVxVy 0 0), opcodeRow (.shrVx 0 0), opcodeRow (.subnVxVy 0 0),
   opcodeRow (.shlVx 0 0)] ++
  [opcodeRow (.sneVxVy 0 0), opcodeRow (.ldIAddr 0), opcodeRow (.jpV0Addr 0), opcodeRow (.rndVxNN 0 0),
   opcodeRow (.drwVxVyN 0 0 0)]

/-- `SHR Vx` as it assembles: Y = 0 (R97). -/
def assembleShr (x : Reg) : Instr := .shrVx x 0

/-- `SHL Vx` as it assembles: Y = 0 (R97). -/
def assembleShl (x : Reg) : Instr := .shlVx x 0

/-- The hexadecimal digit of a nibble. -/
def hexDigit (d : Nat) : String :=
  (["0", "1", "2", "3", "4", "5", "6", "7", "8", "9", "A", "B", "C", "D", "E", "F"] : List String).getD (d % 16) "0"

/-- A number of `k` hexadecimal digits, most significant first. -/
def hexDigits : Nat → Nat → String
  | 0, _ => ""
  | k + 1, v => hexDigits k (v / 16) ++ hexDigit v

/-- A number as R97 writes it: hexadecimal with `0x` (log 22: the field's width, with leading zeros). -/
def asmNumber (k v : Nat) : String := "0x" ++ hexDigits k v

/-- A register as R97 writes it: V0 to VF. -/
def asmReg (x : Reg) : String := "V" ++ hexDigit x.val

/-- A mnemonic with the operands Vx and Vy. -/
def asmXY (m : String) (x y : Reg) : String := m ++ " " ++ asmReg x ++ "," ++ asmReg y

/-- A mnemonic with the operands Vx and NN. -/
def asmXNN (m : String) (x : Reg) (nn : Byte) : String := m ++ " " ++ asmReg x ++ "," ++ asmNumber 2 nn.toNat

/-- An instruction in the assembler syntax of R97. -/
def asmText : Instr → String
  | .cls => "CLS"
  | .ret => "RET"
  | .jpAddr nnn => "JP " ++ asmNumber 3 nnn.toNat
  | .callAddr nnn => "CALL " ++ asmNumber 3 nnn.toNat
  | .seVxNN x nn => asmXNN "SE" x nn
  | .sneVxNN x nn => asmXNN "SNE" x nn
  | .seVxVy x y => asmXY "SE" x y
  | .ldVxNN x nn => asmXNN "LD" x nn
  | .addVxNN x nn => asmXNN "ADD" x nn
  | .ldVxVy x y => asmXY "LD" x y
  | .orVxVy x y => asmXY "OR" x y
  | .andVxVy x y => asmXY "AND" x y
  | .xorVxVy x y => asmXY "XOR" x y
  | .addVxVy x y => asmXY "ADD" x y
  | .subVxVy x y => asmXY "SUB" x y
  | .shrVx x _ => "SHR " ++ asmReg x
  | .subnVxVy x y => asmXY "SUBN" x y
  | .shlVx x _ => "SHL " ++ asmReg x
  | .sneVxVy x y => asmXY "SNE" x y
  | .ldIAddr nnn => "LD I," ++ asmNumber 3 nnn.toNat
  | .jpV0Addr nnn => "JP V0," ++ asmNumber 3 nnn.toNat
  | .rndVxNN x nn => asmXNN "RND" x nn
  | .drwVxVyN x y n => asmXY "DRW" x y ++ "," ++ asmNumber 1 n

/-- The word whose bits `spec/opcode_table.json` numbers: the low `nbits` of `w`, every higher bit 0. -/
def tableWord (nbits w : Nat) : Word := BitVec.ofNat 16 (w % 2 ^ nbits)

/-- The host's question: what the decoder reads from an instruction whose bits are `w`, laid out as the hardware
stores it. -/
def decodeTableWord (nbits w : Nat) : Option Instr := (decodeBytes (bytesOfWord (tableWord nbits w))).toInstr

end Sys2Proof
end

