-- ==== Sys2Proof/Machine/Params.lean ====
section
/-! DEFINITION. The defaults of the parameters (00_scope.md R6, 10_state.md R27): the values State.reset carries. -/

namespace Sys2Proof.Machine

/-- The classical glyphs of the characters 0 to 7 (R27, marked there as general knowledge; log 4). -/
def fontLow : Vector (Vector Byte 5) 8 :=
  #v[#v[0xF0, 0x90, 0x90, 0x90, 0xF0],
     #v[0x20, 0x60, 0x20, 0x20, 0x70],
     #v[0xF0, 0x10, 0xF0, 0x80, 0xF0],
     #v[0xF0, 0x10, 0xF0, 0x10, 0xF0],
     #v[0x90, 0x90, 0xF0, 0x10, 0x10],
     #v[0xF0, 0x80, 0xF0, 0x10, 0xF0],
     #v[0xF0, 0x80, 0xF0, 0x90, 0xF0],
     #v[0xF0, 0x10, 0x20, 0x40, 0x40]]

/-- The classical glyphs of the characters 8 to F (R27; log 4). -/
def fontHigh : Vector (Vector Byte 5) 8 :=
  #v[#v[0xF0, 0x90, 0xF0, 0x90, 0xF0],
     #v[0xF0, 0x90, 0xF0, 0x10, 0xF0],
     #v[0xF0, 0x90, 0xF0, 0x90, 0x90],
     #v[0xE0, 0x90, 0xE0, 0x90, 0xE0],
     #v[0xF0, 0x80, 0x80, 0x80, 0xF0],
     #v[0xE0, 0x90, 0x90, 0x90, 0xE0],
     #v[0xF0, 0x80, 0xF0, 0x80, 0xF0],
     #v[0xF0, 0x80, 0xF0, 0x80, 0x80]]

/-- The default FONT (R27). -/
def defaultFont : Vector (Vector Byte 5) 16 := fontLow ++ fontHigh

/-- The defaults of R6: VF_DEST = result, ADDRESS_POLICY = wrap, FONT_BASE = 0x000, FONT = the classical glyphs
(log 2, 3, 4). -/
def defaultParams : Params :=
  { vfDest := .result, addressPolicy := .wrap, fontBase := 0x000#12, font := defaultFont }

end Sys2Proof.Machine
end

