-- ==== Sys2Proof/Machine/State.lean ====
section
/-! DEFINITION. The state of the core (10_state.md R20), as plain data, its reset value (R37), and the reasons a step
can stop. -/

namespace Sys2Proof.Machine

/-- MEM (R26): the bytes that differ from their reset contents, by address, in canonical form (log 14). -/
abbrev Memory := List Host.Cell

/-- PIX (R30): 32 rows of 64 pixels; true is on. -/
abbrev Display := Vector (Vector Bool 64) 32

/-- The kinds of fatal error (R33, R240). -/
inductive FatalKind where
  /-- CALL with SP = 16 (R132). -/
  | stackOverflow
  /-- RET with SP = 0 (R130). -/
  | stackUnderflow
  /-- Under ADDRESS_POLICY = fault, a byte address at or above 0x1000 (R63). -/
  | addressFault
  deriving DecidableEq, Repr

/-- The record of a fatal error: its kind and the address of the instruction that raised it (R33). -/
structure HaltRecord where
  kind : FatalKind
  ia : Word
  deriving DecidableEq, Repr

/-- Everything R20 gives the machine, then the model's own two fields: the parameters (log 1) and the count of RNG
draws (log 5). -/
structure State where
  /-- MEM. -/
  mem : Memory
  /-- V0 to VF (R21). -/
  v : Vector Byte 16
  /-- The index register I (R25). -/
  i : Word
  /-- The program counter (R24). -/
  pc : Word
  /-- SP, the number of stack entries in use, in [0,16] (R28). -/
  sp : Fin 17
  /-- STACK (R28). -/
  stack : Vector Word 16
  /-- The delay timer DT (R29). -/
  dt : Byte
  /-- The sound timer ST (R29). -/
  st : Byte
  /-- PIX (R30). -/
  pix : Display
  /-- DIRTY (R31). -/
  dirty : Bool
  /-- KEY (R32): true is pressed. -/
  key : Vector Bool 16
  /-- HALT (R33): none while the core runs. -/
  halt : Option HaltRecord
  /-- The parameters of R6; no operation writes them. -/
  params : Params
  /-- How many bytes have been drawn from RNG: the index of the next free value. -/
  rngDraws : Nat
  deriving DecidableEq, Repr

/-- The machine stops with a fault. NO CONSTRUCTOR: the spec gives every error of the core an effect on the state (R242,
R245), so every one is a next state, and nobody raises a fault (log 11). Safe: nothing is stopped that the hardware goes
on with. -/
inductive Fault where
  deriving DecidableEq, Repr

/-- The model has no meaning for an instruction. -/
inductive Refusal where
  /-- Raised by exec's arm of an instruction that has no meaning yet; no arm of this model raises it. Safe: the machine
  stops where the hardware goes on. -/
  | notModelled (mnemonic : String)
  deriving DecidableEq, Repr

/-- The state after reset (R37): everything zero, the font in memory (the reset contents of an unlisted byte),
PC = 0x200, HALT = none; the parameters at their defaults (R6). -/
def State.reset : State :=
  { mem := []
    v := Vector.replicate 16 0x00#8
    i := 0x0000#16
    pc := 0x0200#16
    sp := 0
    stack := Vector.replicate 16 0x0000#16
    dt := 0x00#8
    st := 0x00#8
    pix := Vector.replicate 32 (Vector.replicate 64 false)
    dirty := false
    key := Vector.replicate 16 false
    halt := none
    params := defaultParams
    rngDraws := 0 }

end Sys2Proof.Machine
end

