-- ==== Sys2Proof/Machine/Ops.lean ====
section
/-! DEFINITION. The named operations over memory, the address policy, registers, the stack and the display, and the
one way a fatal error is taken. Each field of the state has one writer here, so every special behaviour stands once. -/

namespace Sys2Proof.Machine

/-! ### Memory -/

/-- The number of bytes of MEM (R60). -/
def memorySize : Nat := 4096

/-- The first address a program is loaded to (R61, R285). -/
def loadBase : Nat := 0x200

/-- The reset contents of address `a` (R37, R27): the font table at FONT_BASE, 0x00 elsewhere. It is what an unlisted
address reads as. The table lies in the reserved region (R61), so no address from 0x200 up asks for it. -/
def resetByte (p : Params) (a : Nat) : Byte :=
  if a < loadBase then
    if p.fontBase.toNat ≤ a then
      if h : a - p.fontBase.toNat < 80 then
        (p.font[(a - p.fontBase.toNat) / 5]'(by omega))[(a - p.fontBase.toNat) % 5]'(by omega)
      else 0x00#8
    else 0x00#8
  else 0x00#8

/-- The byte at address `a`. -/
def Memory.read (p : Params) (m : Memory) (a : Nat) : Byte :=
  match m with
  | [] => resetByte p a
  | (k, b) :: rest => if a = k then b else Memory.read p rest a

/-- `(a, b)` before the entries `m`, unless `b` is what `a` reads as unlisted. -/
def Memory.consCell (p : Params) (a : Nat) (b : Byte) (m : Memory) : Memory :=
  if b = resetByte p a then m else (a, b) :: m

/-- The byte `b` written at address `a`; the canonical form is kept. -/
def Memory.write (p : Params) (m : Memory) (a : Nat) (b : Byte) : Memory :=
  match m with
  | [] => Memory.consCell p a b []
  | (k, c) :: rest =>
    if a < k then Memory.consCell p a b ((k, c) :: rest)
    else if a = k then Memory.consCell p a b rest
    else (k, c) :: Memory.write p rest a b

/-- The canonical form: addresses strictly rising and below 4096, and no entry equal to what its address reads as
unlisted. -/
abbrev Memory.wf (p : Params) (m : Memory) : Prop :=
  m.Pairwise (fun c d => c.1 < d.1) ∧ ∀ c ∈ m, c.1 < memorySize ∧ c.2 ≠ resetByte p c.1

/-- The bytes written from address `a` up, lowest first (R9, MemWrite). -/
def Memory.writeList (p : Params) (m : Memory) (a : Nat) : List Byte → Memory
  | [] => m
  | b :: rest => Memory.writeList p (Memory.write p m a b) (a + 1) rest

/-- EA (R63): a byte address of MEM from an unbounded address; `none` is the raise of ADDRESS_FAULT. -/
def ea (policy : AddressPolicy) (a : Nat) : Option Nat :=
  if a < memorySize then some a
  else
    match policy with
    | .wrap => some (a % memorySize)
    | .fault => none

/-- The byte of the state's memory at address `a` of MEM. -/
def State.byteAt (s : State) (a : Nat) : Byte := Memory.read s.params s.mem a

/-- MemRead(a, 1) through EA (R9, R63). -/
def State.memRead (s : State) (a : Nat) : Option Byte := (ea s.params.addressPolicy a).map s.byteAt

/-- The bytes at `a`, `a + 1`, …, `a + n - 1`, each address through EA on its own (R64); `none` when one of them raises
ADDRESS_FAULT. -/
def State.memReadList (s : State) (a : Nat) : Nat → Option (List Byte)
  | 0 => some []
  | n + 1 =>
    match s.memRead a, s.memReadList (a + 1) n with
    | some b, some bs => some (b :: bs)
    | _, _ => none

/-- The memory replaced. -/
def State.setMem (s : State) (m : Memory) : State := { s with mem := m }

/-! ### Registers -/

/-- V[x] (R9, R21). -/
def State.reg (s : State) (x : Reg) : Byte := s.v[x]

/-- V[x] <- b (R9, R21): no register is hard-wired. -/
def State.setReg (s : State) (x : Reg) (b : Byte) : State := { s with v := s.v.set x.val b x.isLt }

/-- VF, the register that doubles as the flag (R22). -/
def regF : Reg := 15

/-- I <- w (R9). -/
def State.setI (s : State) (w : Word) : State := { s with i := w }

/-- PC <- w (R9); 16 bits, so every write is mod 2^16 (R24). -/
def State.setPc (s : State) (w : Word) : State := { s with pc := w }

/-- PC moved past one word: the fetch advance (R112) and the skip (R150), mod 2^16. -/
def State.advancePc (s : State) : State := s.setPc (s.pc + 2#16)

/-- The address of the instruction an `execute` arm runs for: the arm sees PC = ia + 2 (R112; log 12). -/
def State.ia (s : State) : Word := s.pc - 2#16

/-! ### The call stack -/

/-- `STACK[SP] <- w; SP <- SP + 1` (R132); `none` when SP = 16. -/
def State.push (s : State) (w : Word) : Option State :=
  if h : s.sp.val < 16 then
    some { s with stack := s.stack.set s.sp.val w h, sp := ⟨s.sp.val + 1, by omega⟩ }
  else none

/-- `SP <- SP - 1`, with the entry then at STACK[SP] (R130); the entry is not cleared; `none` when SP = 0. -/
def State.pop (s : State) : Option (Word × State) :=
  if h : 0 < s.sp.val then
    some (s.stack[s.sp.val - 1]'(by omega), { s with sp := ⟨s.sp.val - 1, by omega⟩ })
  else none

/-! ### Timers, keys -/

/-- DT and ST <- d, t (R9). -/
def State.setTimers (s : State) (d t : Byte) : State := { s with dt := d, st := t }

/-- KEY[k] <- b (R46). -/
def State.setKey (s : State) (k : Fin 16) (b : Bool) : State := { s with key := s.key.set k.val b k.isLt }

/-! ### The display -/

/-- PIX[x][y] (R30): x is the column, y the row. -/
def Display.get (d : Display) (x : Fin 64) (y : Fin 32) : Bool := d[y][x]

/-- PIX[x][y] <- b. -/
def Display.put (d : Display) (x : Fin 64) (y : Fin 32) (b : Bool) : Display :=
  d.set y.val (d[y].set x.val b x.isLt) y.isLt

/-- Every pixel off. -/
def Display.blank : Display := Vector.replicate 32 (Vector.replicate 64 false)

/-- The display replaced. -/
def State.setPix (s : State) (d : Display) : State := { s with pix := d }

/-- DIRTY <- b. -/
def State.setDirty (s : State) (b : Bool) : State := { s with dirty := b }

/-! ### RNG -/

/-- One byte drawn from RNG (R9, R34, R197): the free value of the next draw, and the count advanced. -/
def State.drawRng (s : State) : Byte × State := (Config.rngByte s.rngDraws, { s with rngDraws := s.rngDraws + 1 })

/-! ### Fatal errors -/

/-- HALT <- h. -/
def State.setHalt (s : State) (h : Option HaltRecord) : State := { s with halt := h }

/-- `raise Fatal(kind, ia)` (R245): HALT becomes the record and nothing else is written. This is the core's only trap
entry: no vector, no handler, no mode (R248). -/
def raiseFatal (kind : FatalKind) (ia : Word) (s : State) : State := s.setHalt (some ⟨kind, ia⟩)

/-- Reset (R280): every field of R20 at its value of R37. It is the only way out of a fatal halt, and no instruction
returns from one (R249). The parameters are not state (R6) and keep their values; the RNG's own count belongs to the
parameter RNG (R34) and keeps its value too (log 6). -/
def State.resetMachine (s : State) : State := { State.reset with params := s.params, rngDraws := s.rngDraws }

end Sys2Proof.Machine
end

