-- ==== Sys2Proof/Machine/Operands.lean ====
section
/-! DEFINITION. The operand forms (30_encoding.md R83): registers are indices resolved through the register array, NN is
a byte as it is, NNN an address zero-extended to 16 bits, and DRW's operand is the N bytes from I up. -/

namespace Sys2Proof.Machine

/-- The operand VX or VY: the register's content (R83). -/
def opReg (s : State) (x : Reg) : Byte := s.reg x

/-- The operand NN: used as is, never extended or scaled (R83). -/
def opByte (nn : Byte) : Byte := nn

/-- The operand NNN as PC and I take it: `zext_16(NNN)` (R83). -/
def opAddr (nnn : Addr) : Word := nnn.setWidth 16

/-- The target of JP V0: `zext_16(NNN) + zext_16(V[0])`, stored in full (R133). -/
def opAddrPlusV0 (s : State) (nnn : Addr) : Word := opAddr nnn + (s.reg 0).setWidth 16

/-- DRW's sprite: the bytes at I + r for r below n, each through EA, the address I + r not truncated (R64, R222). -/
def opSprite (s : State) (n : Nat) : Option (List Byte) := s.memReadList s.i.toNat n

/-- DRW's column origin: V[X] mod 64 (R221). -/
def opColumn (s : State) (x : Reg) : Nat := (s.reg x).toNat % 64

/-- DRW's row origin: V[Y] mod 32 (R221). -/
def opRow (s : State) (y : Reg) : Nat := (s.reg y).toNat % 32

end Sys2Proof.Machine
end

