-- ==== Sys2Proof/Machine/Flags.lean ====
section
/-! DEFINITION. The arithmetic of the 8XYn family with its flag (43_register_alu.md R170, R171): each result is computed
exactly and then narrowed, each flag is a comparison of the exact values. -/

namespace Sys2Proof.Machine

/-- A flag as the byte VF holds: 1 or 0. -/
def flagByte (f : Bool) : Byte := if f then 0x01#8 else 0x00#8

/-- The sum mod 256 (R170, R176, R182). -/
def sumByte (a b : Byte) : Byte := BitVec.ofNat 8 (a.toNat + b.toNat)

/-- The carry out of bit 7: sum > 255 (R182). -/
def carryFlag (a b : Byte) : Bool := 255 < a.toNat + b.toNat

/-- The difference a - b as an integer, mod 256 (R170, R183). -/
def diffByte (a b : Byte) : Byte := BitVec.ofInt 8 ((a.toNat : Int) - (b.toNat : Int))

/-- No borrow: a >= b, unsigned (R183). -/
def noBorrowFlag (a b : Byte) : Bool := b.toNat ≤ a.toNat

/-- a >> 1, a 0 coming in at bit 7 (R170, R184). -/
def shrByte (a : Byte) : Byte := BitVec.ofNat 8 (a.toNat / 2)

/-- The bit a right shift drops: bit 0 (R184). -/
def lowBit (a : Byte) : Bool := a.getLsbD 0

/-- (a << 1) mod 256, a 0 coming in at bit 0 (R170, R186). -/
def shlByte (a : Byte) : Byte := BitVec.ofNat 8 (a.toNat * 2)

/-- The bit a left shift drops: bit 7 (R186). -/
def highBit (a : Byte) : Bool := a.getLsbD 7

/-- `write_fr(X, flag, result)` (R171): VF takes the flag, then VX the result; with X = F the parameter VF_DEST says
which of the two VF keeps. -/
def writeFlagResult (x : Reg) (flag : Bool) (result : Byte) (s : State) : State :=
  if x = regF then
    match s.params.vfDest with
    | .result => s.setReg regF result
    | .flag => s.setReg regF (flagByte flag)
  else (s.setReg regF (flagByte flag)).setReg x result

end Sys2Proof.Machine
end

