-- ==== Sys2Proof/Machine/ConditionalSkip.lean ====
section
/-! DEFINITION. SE and SNE (42_conditional_skip.md). -/

namespace Sys2Proof.Machine

/-- A skip (R150): PC moves past one more word when the predicate holds; nothing else changes. -/
def skipIf (c : Bool) (s : State) : State := if c then s.advancePc else s

/-- `SE Vx,NN` (R151). -/
def execSeVxNN (x : Reg) (nn : Byte) (s : State) : Host.Outcome State Fault Refusal :=
  .next (skipIf (opReg s x == opByte nn) s)

/-- `SNE Vx,NN` (R152). -/
def execSneVxNN (x : Reg) (nn : Byte) (s : State) : Host.Outcome State Fault Refusal :=
  .next (skipIf (opReg s x != opByte nn) s)

/-- `SE Vx,Vy` (R153). -/
def execSeVxVy (x y : Reg) (s : State) : Host.Outcome State Fault Refusal :=
  .next (skipIf (opReg s x == opReg s y) s)

/-- `SNE Vx,Vy` (R154). -/
def execSneVxVy (x y : Reg) (s : State) : Host.Outcome State Fault Refusal :=
  .next (skipIf (opReg s x != opReg s y) s)

end Sys2Proof.Machine
end

