-- ==== Sys2Proof/Machine/ControlTransfer.lean ====
section
/-! DEFINITION. RET, JP, CALL and JP V0 (41_control_transfer.md). When an arm starts, PC = ia + 2. -/

namespace Sys2Proof.Machine

/-- `RET` (R130). -/
def execRet (s : State) : Host.Outcome State Fault Refusal :=
  match s.pop with
  | some (target, t) => .next (t.setPc target)
  | none => .next (raiseFatal .stackUnderflow s.ia s)

/-- `JP addr` (R131). -/
def execJpAddr (nnn : Addr) (s : State) : Host.Outcome State Fault Refusal := .next (s.setPc (opAddr nnn))

/-- `CALL addr` (R132): the pushed PC is ia + 2. -/
def execCallAddr (nnn : Addr) (s : State) : Host.Outcome State Fault Refusal :=
  match s.push s.pc with
  | some t => .next (t.setPc (opAddr nnn))
  | none => .next (raiseFatal .stackOverflow s.ia s)

/-- `JP V0,addr` (R133). -/
def execJpV0Addr (nnn : Addr) (s : State) : Host.Outcome State Fault Refusal := .next (s.setPc (opAddrPlusV0 s nnn))

end Sys2Proof.Machine
end

