-- ==== Sys2Proof/Machine/DisplaySurface.lean ====
section
/-! DEFINITION. CLS and DRW (44_display.md). -/

namespace Sys2Proof.Machine

/-- What DRW builds up: the display so far and whether a pixel went from on to off (R222). -/
abbrev Drawing := Display × Bool

/-- A column, wrapped toroidally (R221). -/
def wrapColumn (c : Nat) : Fin 64 := ⟨c % 64, Nat.mod_lt c (by decide)⟩

/-- A row, wrapped toroidally (R221). -/
def wrapRow (r : Nat) : Fin 32 := ⟨r % 32, Nat.mod_lt r (by decide)⟩

/-- One sprite pixel at column x and row y (R222): a 0 bit leaves the pixel alone, a 1 bit inverts it and notes a
collision if it was on. -/
def drawPixel (bit : Bool) (x : Fin 64) (y : Fin 32) (a : Drawing) : Drawing :=
  if bit then (a.1.put x y (!a.1.get x y), a.2 || a.1.get x y) else a

/-- One sprite row (R221, R222): bit b from the left is bit 7 - b of the byte, at column (x0 + b) mod 64. -/
def drawRow (x0 : Nat) (y : Fin 32) (row : Byte) (a : Drawing) : Drawing :=
  (List.range 8).foldl (fun acc b => drawPixel (row.getLsbD (7 - b)) (wrapColumn (x0 + b)) y acc) a

/-- The sprite's rows, the first at display row y0 mod 32, each next one a row below, mod 32 (R221, R222). -/
def drawRows (x0 y0 : Nat) : List Byte → Drawing → Drawing
  | [], a => a
  | row :: rest, a => drawRows x0 (y0 + 1) rest (drawRow x0 (wrapRow y0) row a)

/-- `CLS` (R220). -/
def execCls (s : State) : Host.Outcome State Fault Refusal := .next ((s.setPix Display.blank).setDirty true)

/-- `DRW Vx,Vy,N` (R222): coordinates and sprite bytes are read first; a byte that cannot be read raises ADDRESS_FAULT
before anything is written; VF is written after the pixels. -/
def execDrwVxVyN (x y : Reg) (n : Nat) (s : State) : Host.Outcome State Fault Refusal :=
  match opSprite s n with
  | some rows =>
    .next (((s.setPix (drawRows (opColumn s x) (opRow s y) rows (s.pix, false)).1).setReg regF
      (flagByte (drawRows (opColumn s x) (opRow s y) rows (s.pix, false)).2)).setDirty true)
  | none => .next (raiseFatal .addressFault s.ia s)

end Sys2Proof.Machine
end

