-- ==== Sys2Proof/Machine/RegisterAlu.lean ====
section
/-! DEFINITION. The register file and the ALU (43_register_alu.md). No arm here writes PC; every arm reads its operands
before it writes (40_engine.md R116). -/

namespace Sys2Proof.Machine

/-- `LD Vx,NN` (R175). -/
def execLdVxNN (x : Reg) (nn : Byte) (s : State) : Host.Outcome State Fault Refusal := .next (s.setReg x (opByte nn))

/-- `ADD Vx,NN` (R176): the carry is discarded. -/
def execAddVxNN (x : Reg) (nn : Byte) (s : State) : Host.Outcome State Fault Refusal :=
  .next (s.setReg x (sumByte (opReg s x) (opByte nn)))

/-- `LD Vx,Vy` (R177). -/
def execLdVxVy (x y : Reg) (s : State) : Host.Outcome State Fault Refusal := .next (s.setReg x (opReg s y))

/-- `OR Vx,Vy` (R178): VF is left alone unless X = F. -/
def execOrVxVy (x y : Reg) (s : State) : Host.Outcome State Fault Refusal :=
  .next (s.setReg x (opReg s x ||| opReg s y))

/-- `AND Vx,Vy` (R179): VF is left alone unless X = F. -/
def execAndVxVy (x y : Reg) (s : State) : Host.Outcome State Fault Refusal :=
  .next (s.setReg x (opReg s x &&& opReg s y))

/-- `XOR Vx,Vy` (R180): VF is left alone unless X = F. -/
def execXorVxVy (x y : Reg) (s : State) : Host.Outcome State Fault Refusal :=
  .next (s.setReg x (opReg s x ^^^ opReg s y))

/-- `ADD Vx,Vy` (R182). -/
def execAddVxVy (x y : Reg) (s : State) : Host.Outcome State Fault Refusal :=
  .next (writeFlagResult x (carryFlag (opReg s x) (opReg s y)) (sumByte (opReg s x) (opReg s y)) s)

/-- `SUB Vx,Vy` (R183). -/
def execSubVxVy (x y : Reg) (s : State) : Host.Outcome State Fault Refusal :=
  .next (writeFlagResult x (noBorrowFlag (opReg s x) (opReg s y)) (diffByte (opReg s x) (opReg s y)) s)

/-- `SHR Vx` (R184): VY is not read (R94). -/
def execShrVx (x _y : Reg) (s : State) : Host.Outcome State Fault Refusal :=
  .next (writeFlagResult x (lowBit (opReg s x)) (shrByte (opReg s x)) s)

/-- `SUBN Vx,Vy` (R185). -/
def execSubnVxVy (x y : Reg) (s : State) : Host.Outcome State Fault Refusal :=
  .next (writeFlagResult x (noBorrowFlag (opReg s y) (opReg s x)) (diffByte (opReg s y) (opReg s x)) s)

/-- `SHL Vx` (R186): VY is not read (R94). -/
def execShlVx (x _y : Reg) (s : State) : Host.Outcome State Fault Refusal :=
  .next (writeFlagResult x (highBit (opReg s x)) (shlByte (opReg s x)) s)

/-- `LD I,addr` (R195). -/
def execLdIAddr (nnn : Addr) (s : State) : Host.Outcome State Fault Refusal := .next (s.setI (opAddr nnn))

/-- `RND Vx,NN` (R197): one byte is drawn, whatever NN is; the byte is a free value (log 5). -/
def execRndVxNN (x : Reg) (nn : Byte) (s : State) : Host.Outcome State Fault Refusal :=
  .next (s.drawRng.2.setReg x (s.drawRng.1 &&& opByte nn))

end Sys2Proof.Machine
end

