-- ==== Sys2Proof/Machine/Dispatch.lean ====
section
/-! DEFINITION. Dispatch (40_engine.md R113): exactly one `execute` arm, the one the decoded variant selects. -/

namespace Sys2Proof.Machine

def exec (i : Instr) (s : State) : Host.Outcome State Fault Refusal :=
  match i with
  | .cls => Sys2Proof.Machine.execCls s
  | .ret => Sys2Proof.Machine.execRet s
  | .jpAddr nnn => Sys2Proof.Machine.execJpAddr nnn s
  | .callAddr nnn => Sys2Proof.Machine.execCallAddr nnn s
  | .seVxNN x nn => Sys2Proof.Machine.execSeVxNN x nn s
  | .sneVxNN x nn => Sys2Proof.Machine.execSneVxNN x nn s
  | .seVxVy x y => Sys2Proof.Machine.execSeVxVy x y s
  | .ldVxNN x nn => Sys2Proof.Machine.execLdVxNN x nn s
  | .addVxNN x nn => Sys2Proof.Machine.execAddVxNN x nn s
  | .ldVxVy x y => Sys2Proof.Machine.execLdVxVy x y s
  | .orVxVy x y => Sys2Proof.Machine.execOrVxVy x y s
  | .andVxVy x y => Sys2Proof.Machine.execAndVxVy x y s
  | .xorVxVy x y => Sys2Proof.Machine.execXorVxVy x y s
  | .addVxVy x y => Sys2Proof.Machine.execAddVxVy x y s
  | .subVxVy x y => Sys2Proof.Machine.execSubVxVy x y s
  | .shrVx x y => Sys2Proof.Machine.execShrVx x y s
  | .subnVxVy x y => Sys2Proof.Machine.execSubnVxVy x y s
  | .shlVx x y => Sys2Proof.Machine.execShlVx x y s
  | .sneVxVy x y => Sys2Proof.Machine.execSneVxVy x y s
  | .ldIAddr nnn => Sys2Proof.Machine.execLdIAddr nnn s
  | .jpV0Addr nnn => Sys2Proof.Machine.execJpV0Addr nnn s
  | .rndVxNN x nn => Sys2Proof.Machine.execRndVxNN x nn s
  | .drwVxVyN x y n => Sys2Proof.Machine.execDrwVxVyN x y n s

end Sys2Proof.Machine
end

