-- ==== Sys2Proof/Machine/Cycle.lean ====
section
/-! DEFINITION. The fetch-decode-execute cycle (40_engine.md) and its outcome; Step.lean only calls it. -/

namespace Sys2Proof.Machine

/-- The instruction word at PC (R111): two bytes, big-endian, PC and PC + 1 each through EA, PC + 1 not truncated; `none`
is the raise of ADDRESS_FAULT. -/
def fetch (s : State) : Option Word :=
  match s.memRead s.pc.toNat, s.memRead (s.pc.toNat + 1) with
  | some hi, some lo => some (wordOfBytes hi lo)
  | _, _ => none

/-- `Cycle` (R110), as the state it leaves. While HALT is set nothing changes (R119); a fetch fault leaves PC at ia
(R111); every fetched word moves PC on before dispatch, an unknown one too (R112, R242). -/
def cycle (s : State) : Host.Outcome State Fault Refusal :=
  match s.halt with
  | some _ => .next s
  | none =>
    match fetch s with
    | none => .next (raiseFatal .addressFault s.pc s)
    | some w =>
      match decode w with
      | .unknown _ => .next s.advancePc
      | .instr i => exec i s.advancePc

/-- The outcome a cycle reports to the host (R114). It is not machine state (R242, D13; log 10). -/
inductive CycleOutcome where
  /-- The word selected an instruction and it completed. -/
  | ok
  /-- REPORTED(UNKNOWN_OPCODE, w, ia). -/
  | reported (w ia : Word)
  /-- FATAL(kind, ia). -/
  | fatal (h : HaltRecord)
  /-- HALT was already set when the cycle began. -/
  | halted
  deriving DecidableEq, Repr

/-- What an executed arm makes of the cycle's outcome, HALT being none before it (R110, R245); `none` where exec gives no
next state, which no arm of this model does. -/
def outcomeOfExec : Host.Outcome State Fault Refusal → Option CycleOutcome
  | .next t =>
    match t.halt with
    | none => some .ok
    | some h => some (.fatal h)
  | .fault _ => none
  | .refused _ => none

/-- The outcome of the cycle from state `s` (R114), checked in the order of R247. -/
def cycleOutcome (s : State) : Option CycleOutcome :=
  match s.halt with
  | some _ => some .halted
  | none =>
    match fetch s with
    | none => some (.fatal ⟨.addressFault, s.pc⟩)
    | some w =>
      match decode w with
      | .unknown _ => some (.reported w s.pc)
      | .instr i => outcomeOfExec (exec i s.advancePc)

/-- The error kinds of R240. -/
inductive ErrorKind where
  | unknownOpcode
  | stackOverflow
  | stackUnderflow
  | addressFault
  | capacityError
  deriving DecidableEq, Repr

/-- The classes of R240: recoverable, fatal, or an error of the Load operation. -/
inductive ErrorClass where
  | recoverable
  | fatal
  | ofLoad
  deriving DecidableEq, Repr

/-- The code of R240. -/
def errorCode : ErrorKind → Nat
  | .unknownOpcode => 1
  | .stackOverflow => 2
  | .stackUnderflow => 3
  | .addressFault => 4
  | .capacityError => 5

/-- The class of R240. -/
def errorClass : ErrorKind → ErrorClass
  | .unknownOpcode => .recoverable
  | .stackOverflow => .fatal
  | .stackUnderflow => .fatal
  | .addressFault => .fatal
  | .capacityError => .ofLoad

/-- A fatal kind as an error kind. -/
def errorOfFatal : FatalKind → ErrorKind
  | .stackOverflow => .stackOverflow
  | .stackUnderflow => .stackUnderflow
  | .addressFault => .addressFault

/-- The error a cycle's outcome carries, if any (R114, R240). -/
def errorOfOutcome : CycleOutcome → Option ErrorKind
  | .ok => none
  | .reported _ _ => some .unknownOpcode
  | .fatal h => some (errorOfFatal h.kind)
  | .halted => none

/-- The state with the word `w` stored where the next cycle fetches, and HALT none so that it does fetch (log 13). -/
def placeWord (s : State) (w : Word) : State :=
  let m := Memory.write s.params s.mem (s.pc.toNat % memorySize) (w.extractLsb' 8 8)
  (s.setMem (Memory.write s.params m ((s.pc.toNat + 1) % memorySize) (w.extractLsb' 0 8))).setHalt none

end Sys2Proof.Machine
end

