-- ==== Sys2Proof/Machine/Step.lean ====
section
/-! DEFINITION. One step of the machine: one Cycle (40_engine.md R110). The host's other operations are in
Machine/HostOps.lean. -/

namespace Sys2Proof.Machine

/-- One Cycle. -/
def step (s : State) : Host.Outcome State Fault Refusal := Sys2Proof.Machine.cycle s

/-- `s` with the instruction whose bits are `w` (numbered as spec/opcode_table.json numbers them) stored where `step`
fetches its next instruction. -/
def State.withFetchWord (s : State) (nbits w : Nat) : State := placeWord s (tableWord nbits w)

end Sys2Proof.Machine
end

