-- ==== Sys2Proof/Machine/HostOps.lean ====
section
/-! DEFINITION. The host's atomic operations (10_state.md R40): Reset, Load, Cycle, Tick, SetKey, ClearDirty and the
views, and any sequence of them (R41). -/

namespace Sys2Proof.Machine

/-- The most bytes a Load takes: 4096 - 0x200 (R285). -/
def loadCapacity : Nat := 4096 - 0x200

/-- What an operation returns to the host (R40). -/
inductive LoadResult where
  | ok
  | capacityError (len : Nat)
  deriving DecidableEq, Repr

/-- The state `Load(bytes)` leaves (R285): too long a buffer changes nothing; otherwise it is copied from 0x200 up and
nothing else is written, HALT included (R287). -/
def load (bytes : List Byte) (s : State) : State :=
  if loadCapacity < bytes.length then s
  else s.setMem (Memory.writeList s.params s.mem loadBase bytes)

/-- What `Load(bytes)` returns (R285). -/
def loadResult (bytes : List Byte) : LoadResult :=
  if loadCapacity < bytes.length then .capacityError bytes.length else .ok

/-- A countdown clamped at 0 (R260). -/
def countDown (t : Byte) : Byte := if 0 < t.toNat then BitVec.ofNat 8 (t.toNat - 1) else t

/-- `Tick` (R260): each timer that is not zero is decremented; nothing happens while HALT is set. -/
def tick (s : State) : State :=
  match s.halt with
  | some _ => s
  | none => s.setTimers (countDown s.dt) (countDown s.st)

/-- `SetKey(k, b)` (R46), in a halted state too. -/
def setKey (k : Fin 16) (b : Bool) (s : State) : State := s.setKey k b

/-- `ClearDirty` (R47). -/
def clearDirty (s : State) : State := s.setDirty false

/-- The read-only views (R40, R48 to R50): the display and its dirty flag, the two timers, HALT. -/
structure HostView where
  pix : Display
  dirty : Bool
  st : Byte
  dt : Byte
  halt : Option HaltRecord
  deriving DecidableEq, Repr

/-- What a view returns: a copy (R48). -/
def view (s : State) : HostView := { pix := s.pix, dirty := s.dirty, st := s.st, dt := s.dt, halt := s.halt }

/-- The display flattened to a list: pixel (x, y) is at index 64y + x (R48). -/
def flattenDisplay (d : Display) : List Bool := d.toList.flatMap (fun row => row.toList)

/-- The host should emit a tone exactly when ST is not 0 (R49). -/
def toneOn (s : State) : Bool := s.st != 0x00#8

/-- The host's operations (R40). The host has no other move (R52). -/
inductive HostOp where
  | reset
  | load (bytes : List Byte)
  | cycle
  | tick
  | setKey (k : Fin 16) (b : Bool)
  | clearDirty
  | view
  deriving DecidableEq, Repr

/-- One operation, as the state it leaves; each runs to completion before the next (R41). -/
def hostStep (op : HostOp) (s : State) : Host.Outcome State Fault Refusal :=
  match op with
  | .reset => .next s.resetMachine
  | .load bytes => .next (load bytes s)
  | .cycle => step s
  | .tick => .next (tick s)
  | .setKey k b => .next (setKey k b s)
  | .clearDirty => .next (clearDirty s)
  | .view => .next s

/-- What an operation returns to the host (R40). -/
inductive HostOutput where
  | nothing
  | loaded (r : LoadResult)
  | outcome (c : Option CycleOutcome)
  | viewed (v : HostView)
  deriving DecidableEq, Repr

/-- The output of one operation from state `s` (R40). -/
def hostOutput (op : HostOp) (s : State) : HostOutput :=
  match op with
  | .reset => .nothing
  | .load bytes => .loaded (loadResult bytes)
  | .cycle => .outcome (cycleOutcome s)
  | .tick => .nothing
  | .setKey _ _ => .nothing
  | .clearDirty => .nothing
  | .view => .viewed (view s)

/-- A sequence of operations, in the order the host chose (R41). -/
def hostRun : List HostOp → State → Host.Outcome State Fault Refusal
  | [], s => .next s
  | op :: rest, s =>
    match hostStep op s with
    | .next t => hostRun rest t
    | .fault r => .fault r
    | .refused r => .refused r

end Sys2Proof.Machine
end

