-- ==== Sys2Proof/Safety.lean ====
section
/-! DEFINITION. The terms claims are stated in: which parts of the state an instruction may write, what an instruction
leaves unchanged, the invariant of the machine, and the pixels a sprite lights. -/

namespace Sys2Proof

open Sys2Proof.Machine

/-- A part of the state that some instruction writes (10_state.md R20, column "written by"). DT, ST, KEY and MEM have no
part: no instruction writes them. -/
inductive Part where
  | reg (x : Reg)
  | i
  | pc
  | sp
  | stack
  | pix
  | dirty
  | halt
  | rng
  deriving DecidableEq, Repr

/-- Nothing but the parts `ps` differs between `s` and `t`. The timers, the keys, the parameters and every byte of memory
never differ. -/
structure OnlyWrites (ps : List Part) (s t : State) : Prop where
  reg : ∀ x, Part.reg x ∉ ps → t.reg x = s.reg x
  i : Part.i ∉ ps → t.i = s.i
  pc : Part.pc ∉ ps → t.pc = s.pc
  sp : Part.sp ∉ ps → t.sp = s.sp
  stack : Part.stack ∉ ps → t.stack = s.stack
  pix : Part.pix ∉ ps → t.pix = s.pix
  dirty : Part.dirty ∉ ps → t.dirty = s.dirty
  halt : Part.halt ∉ ps → t.halt = s.halt
  rng : Part.rng ∉ ps → t.rngDraws = s.rngDraws
  dt : t.dt = s.dt
  st : t.st = s.st
  key : t.key = s.key
  params : t.params = s.params
  mem : t.mem = s.mem
  byteAt : ∀ a, t.byteAt a = s.byteAt a

/-- The parts an instruction writes when it completes, as its rule lists them. VF stands beside VX where the rule writes
it as the flag (R22). -/
def partsWritten : Instr → List Part
  | .cls => [.pix, .dirty]
  | .ret => [.pc, .sp]
  | .jpAddr _ => [.pc]
  | .callAddr _ => [.pc, .sp, .stack]
  | .seVxNN _ _ => [.pc]
  | .sneVxNN _ _ => [.pc]
  | .seVxVy _ _ => [.pc]
  | .ldVxNN x _ => [.reg x]
  | .addVxNN x _ => [.reg x]
  | .ldVxVy x _ => [.reg x]
  | .orVxVy x _ => [.reg x]
  | .andVxVy x _ => [.reg x]
  | .xorVxVy x _ => [.reg x]
  | .addVxVy x _ => [.reg x, .reg regF]
  | .subVxVy x _ => [.reg x, .reg regF]
  | .shrVx x _ => [.reg x, .reg regF]
  | .subnVxVy x _ => [.reg x, .reg regF]
  | .shlVx x _ => [.reg x, .reg regF]
  | .sneVxVy _ _ => [.pc]
  | .ldIAddr _ => [.i]
  | .jpV0Addr _ => [.pc]
  | .rndVxNN x _ => [.reg x, .rng]
  | .drwVxVyN _ _ _ => [.pix, .dirty, .reg regF]

/-- The condition under which an instruction raises a fatal error of its own, and the error (R247): CALL with SP = 16,
RET with SP = 0, DRW with a row byte EA faults on. -/
def ownError (i : Instr) (s : State) : Option FatalKind :=
  match i with
  | .callAddr _ => if s.sp.val = 16 then some .stackOverflow else none
  | .ret => if s.sp.val = 0 then some .stackUnderflow else none
  | .drwVxVyN _ _ n =>
    if s.params.addressPolicy = .fault ∧ ∃ r ∈ List.range n, memorySize ≤ s.i.toNat + r then some .addressFault
    else none
  | _ => none

/-- `is`, run one after another on the state, no fetch between them. -/
def execAll : List Instr → State → Host.Outcome State Fault Refusal
  | [], s => .next s
  | i :: rest, s =>
    match exec i s with
    | .next t => execAll rest t
    | .fault r => .fault r
    | .refused r => .refused r

/-- DRW's sprite, n rows at I, with its origin from VX and VY, has a 1 bit on pixel (px, py) (R221): bit b from the left
of row r, for some r below n and b below 8. -/
def spriteLights (s : State) (x y : Reg) (n : Nat) (px : Fin 64) (py : Fin 32) : Prop :=
  ∃ r b, r < n ∧ b < 8 ∧ (s.byteAt ((s.i.toNat + r) % memorySize)).getLsbD (7 - b) = true ∧
    px.val = ((s.reg x).toNat % 64 + b) % 64 ∧ py.val = ((s.reg y).toNat % 32 + r) % 32

/-- Every sprite byte of a DRW with n rows can be read (R222, R63). -/
def SpriteReadable (s : State) (n : Nat) : Prop :=
  s.params.addressPolicy = .wrap ∨ ∀ r, r < n → s.i.toNat + r < memorySize

/-- `t` holds in VF the flag of the condition `c`: 1 where it holds, 0 where it does not. -/
def HoldsFlag (c : Prop) (t : State) : Prop := (c → t.reg regF = 0x01#8) ∧ (¬ c → t.reg regF = 0x00#8)

/-- What write_fr leaves of a flag and a result (R171): with X other than F both; with X = F the one VF_DEST names. -/
def FlagAndResult (s t : State) (x : Reg) (flag : Prop) (result : Nat) : Prop :=
  (x ≠ regF → HoldsFlag flag t ∧ (t.reg x).toNat = result) ∧
  (x = regF → s.params.vfDest = .result → (t.reg regF).toNat = result) ∧
  (x = regF → s.params.vfDest = .flag → HoldsFlag flag t)

/-- What HALT says agrees with the rest of the state (R132, R130, R63). -/
def HaltAgrees (s : State) : Prop :=
  match s.halt with
  | none => True
  | some h =>
    match h.kind with
    | .stackOverflow => s.sp.val = 16
    | .stackUnderflow => s.sp.val = 0
    | .addressFault => s.params.addressPolicy = .fault

/-- The invariant of the machine: what the spec says holds of every state the machine reaches. -/
structure MachineInv (s : State) : Prop where
  /-- The memory is in its canonical form. -/
  memWf : Memory.wf s.params s.mem
  /-- The reserved region holds its reset contents, the font among them (R68). -/
  reserved : ∀ a, a < loadBase → s.byteAt a = resetByte s.params a
  /-- I is at most 0xFFF (R25). -/
  index : s.i.toNat < memorySize
  /-- Both timers hold 0 (R29, R263). -/
  timers : s.dt = 0x00#8 ∧ s.st = 0x00#8
  /-- The halt record agrees with the state. -/
  halt : HaltAgrees s

end Sys2Proof
end

