-- ==== Sys2Proof/Certificates/Slice0/Obligations.lean ====
section
/-! DEFINITION. The statements for the provers. Each docstring names the rule of spec/ it formalises, and says where a
statement rests on a decision the spec marks as its own. -/

open Sys2Proof Sys2Proof.Machine

/-! ### The cycle -/

/-- R110, R111: when the two bytes at PC decode to an instruction, a step is exec of it on the state with PC moved past
the word. -/
def Obligations.StepRunsTheDecodedInstruction : Prop :=
  ∀ (s : State) (hi lo : Byte) (i : Instr), s.halt = none →
    s.memRead s.pc.toNat = some hi → s.memRead (s.pc.toNat + 1) = some lo → decodeBytes [hi, lo] = .instr i →
    step s = exec i (s.setPc (s.pc + 2#16))

/-- R112, with R130 to R133 and R151 to R154: the advance happens for every fetched word, the unknown ones included, before
dispatch; control transfer is not incremented twice, and a skip adds 2 more exactly when its predicate holds. That PC is
stored mod 2^16 and that JP V0 leaves NNN + V0 in full, never masked to 12 bits, is the spec's decision D10 (log 20). -/
def Obligations.FetchAdvancesPcBeforeDispatch : Prop :=
  ∀ (s : State) (w : Word), s.halt = none → fetch s = some w →
    ∃ t : State, t.pc.toNat = (s.pc.toNat + 2) % 65536 ∧ t = s.setPc t.pc ∧
      (∀ why, decode w = .unknown why → step s = .next t) ∧
      (∀ i, decode w = .instr i → step s = exec i t) ∧
      (∀ nnn, decode w = .instr (.jpAddr nnn) → ∃ u, step s = .next u ∧ u.pc.toNat = nnn.toNat) ∧
      (∀ nnn, decode w = .instr (.callAddr nnn) → s.sp.val < 16 → ∃ u, step s = .next u ∧ u.pc.toNat = nnn.toNat) ∧
      (∀ nnn, decode w = .instr (.jpV0Addr nnn) →
        ∃ u, step s = .next u ∧ u.pc.toNat = nnn.toNat + (s.reg 0).toNat) ∧
      (decode w = .instr .ret → 0 < s.sp.val → ∃ u, step s = .next u ∧ s.stack[s.sp.val - 1]? = some u.pc) ∧
      (∀ x nn, decode w = .instr (.seVxNN x nn) →
        ∃ u, step s = .next u ∧ u.pc.toNat = (s.pc.toNat + if s.reg x = nn then 4 else 2) % 65536) ∧
      (∀ x nn, decode w = .instr (.sneVxNN x nn) →
        ∃ u, step s = .next u ∧ u.pc.toNat = (s.pc.toNat + if s.reg x = nn then 2 else 4) % 65536) ∧
      (∀ x y, decode w = .instr (.seVxVy x y) →
        ∃ u, step s = .next u ∧ u.pc.toNat = (s.pc.toNat + if s.reg x = s.reg y then 4 else 2) % 65536) ∧
      (∀ x y, decode w = .instr (.sneVxVy x y) →
        ∃ u, step s = .next u ∧ u.pc.toNat = (s.pc.toNat + if s.reg x = s.reg y then 2 else 4) % 65536)

/-- R110, R242: an unknown word advances PC, changes nothing else, and is reported with its raw word and address. What the
report holds is the spec's decision D13, that E and F words are unknown its decision D4. -/
def Obligations.UnknownWordOnlyAdvancesPc : Prop :=
  ∀ (s : State) (w : Word) (why : Unknown), s.halt = none → fetch s = some w → decode w = .unknown why →
    step s = .next (s.setPc (s.pc + 2#16)) ∧ cycleOutcome s = some (.reported w s.pc)

/-- R119, R260: while HALT is set a cycle and a tick change nothing. The spec's decisions D12 and D23. -/
def Obligations.HaltedCycleAndTickChangeNothing : Prop :=
  ∀ (s : State) (h : HaltRecord), s.halt = some h →
    step s = .next s ∧ cycleOutcome s = some .halted ∧ tick s = s

/-- R111, R245: under ADDRESS_POLICY = fault a fetch whose second byte is at or above 0x1000 sets HALT and leaves PC at
ia. The spec's decisions D9 and D12. -/
def Obligations.FetchFaultHaltsBeforeTheAdvance : Prop :=
  ∀ s : State, s.halt = none → s.params.addressPolicy = .fault → 4096 ≤ s.pc.toNat + 1 →
    step s = .next (s.setHalt (some ⟨.addressFault, s.pc⟩)) ∧ cycleOutcome s = some (.fatal ⟨.addressFault, s.pc⟩)

/-- R62, R63, R111: the word's high byte is at the lower address; both addresses are taken mod 4096 under wrap, on their
own; under fault the fetch needs both below 4096. The spec's decision D9. -/
def Obligations.FetchIsBigEndian : Prop :=
  ∀ s : State, s.params.addressPolicy = .wrap ∨ s.pc.toNat + 1 < 4096 →
    ∃ w, fetch s = some w ∧
      w.toNat = (s.byteAt (s.pc.toNat % 4096)).toNat * 256 + (s.byteAt ((s.pc.toNat + 1) % 4096)).toNat

/-- R114, R245, R246: the outcome is FATAL with a record exactly when the cycle sets HALT to that record. The spec's
decisions D12 and D13. -/
def Obligations.FatalOutcomeIsTheHaltRecord : Prop :=
  ∀ (s : State) (h : HaltRecord), s.halt = none →
    (cycleOutcome s = some (.fatal h) ↔ ∃ t, step s = .next t ∧ t.halt = some h)

/-- No instruction and no host operation is stopped on: each answers a next state from every state. The model's choice
(log 11): a fatal error, a fetch fault, an unknown word and a halted cycle are next states, with the effect R245, R111,
R242 and R119 give them (the spec's decision D12), and nothing is a fault. -/
def Obligations.EveryOperationAnswersANextState : Prop :=
  (∀ (i : Instr) (s : State), ∃ t, exec i s = .next t) ∧ (∀ (op : HostOp) (s : State), ∃ t, hostStep op s = .next t)

/-- R245, R247: an instruction that raises an error of its own sets HALT to the kind and the instruction's address, and
writes nothing else. The spec's decision D12. -/
def Obligations.OwnErrorWritesOnlyHalt : Prop :=
  ∀ (i : Instr) (s : State) (k : FatalKind), ownError i s = some k →
    exec i s = .next (s.setHalt (some ⟨k, s.pc - 2#16⟩))

/-- R20 (column "written by"), R22, R64, R113: an instruction that raises no error of its own completes and writes only
the parts its rule lists: no other register, no timer, no key, no parameter, no byte of memory. That OR, AND and XOR
write VX only, so leave VF, is the spec's decision D8 (log 19); the draw count RND advances is the model's own field
(log 5). -/
def Obligations.FrameOfEveryInstruction : Prop :=
  ∀ (i : Instr) (s : State), ownError i s = none → ∃ t, exec i s = .next t ∧ OnlyWrites (partsWritten i) s t

/-- R118: a cycle changes neither timer and draws from RNG at most once, only when it executes RND; a tick executes no
instruction: it writes the two timers and nothing else. -/
def Obligations.CycleKeepsTimersAndDrawsOnlyForRnd : Prop :=
  (∀ s t : State, step s = .next t →
    t.dt = s.dt ∧ t.st = s.st ∧
      (t.rngDraws = s.rngDraws ∨
        t.rngDraws = s.rngDraws + 1 ∧
          ∃ w x nn, s.halt = none ∧ fetch s = some w ∧ decode w = .instr (.rndVxNN x nn))) ∧
  (∀ s : State, ∃ d e, tick s = s.setTimers d e)

/-- R120: a jump to its own address is a fixed point of the cycle. -/
def Obligations.ParkIsAFixedPoint : Prop :=
  ∀ (s : State) (a : Addr), s.halt = none → s.pc.toNat = a.toNat → fetch s = some (0x1#4 ++ a) →
    step s = .next s ∧ cycleOutcome s = some .ok

/-- R32, R263: no cycle reads the keys or the timers: changed beforehand, they change nothing else. -/
def Obligations.CycleIgnoresKeysAndTimers : Prop :=
  ∀ (s t : State) (k : Vector Bool 16) (d e : Byte), step s = .next t →
    step { s with key := k, dt := d, st := e } = .next { t with key := k, dt := d, st := e }

/-- R197, R224: an instruction other than RND does not depend on RNG. -/
def Obligations.OnlyRndDependsOnRng : Prop :=
  ∀ (i : Instr) (s t : State) (n : Nat), (∀ x nn, i ≠ .rndVxNN x nn) → exec i s = .next t →
    exec i { s with rngDraws := n } = .next { t with rngDraws := n }

/-- The model's convention of placing a word where the next step fetches (log 13): that step runs what the word decodes
to. -/
def Obligations.PlacedWordIsWhatTheNextStepRuns : Prop :=
  ∀ (s : State) (w : Nat), Memory.wf s.params s.mem →
    s.params.addressPolicy = .wrap ∨ s.pc.toNat + 1 < 4096 →
    step (s.withFetchWord 16 w) =
      match decode (BitVec.ofNat 16 w) with
      | .unknown _ => .next (s.withFetchWord 16 w).advancePc
      | .instr i => exec i (s.withFetchWord 16 w).advancePc

/-! ### Control transfer -/

/-- R131: PC = NNN, nothing else. -/
def Obligations.JpSetsPc : Prop :=
  ∀ (nnn : Addr) (s : State), ∃ t, exec (.jpAddr nnn) s = .next t ∧ t.pc.toNat = nnn.toNat ∧ OnlyWrites [.pc] s t

/-- R133: PC = NNN + V0. That the sum is stored in full, not reduced to 12 bits, is the spec's decision D10 (R24; log 20). -/
def Obligations.JpV0AddsInFull : Prop :=
  ∀ (nnn : Addr) (s : State),
    ∃ t, exec (.jpV0Addr nnn) s = .next t ∧ t.pc.toNat = nnn.toNat + (s.reg 0).toNat ∧ OnlyWrites [.pc] s t

/-- R132: with room on the stack CALL stores PC (ia + 2) at STACK[SP], increments SP and sets PC = NNN; every other entry
keeps its value. -/
def Obligations.CallPushesThePc : Prop :=
  ∀ (nnn : Addr) (s : State), s.sp.val < 16 →
    ∃ t, exec (.callAddr nnn) s = .next t ∧ t.pc.toNat = nnn.toNat ∧ t.sp.val = s.sp.val + 1 ∧
      t.stack[s.sp.val]? = some s.pc ∧ (∀ k : Nat, k ≠ s.sp.val → t.stack[k]? = s.stack[k]?) ∧
      OnlyWrites [.pc, .sp, .stack] s t

/-- R132, R245: CALL with SP = 16 is a fatal overflow; nothing but HALT is written. The record and what it leaves alone
are the spec's decision D12. -/
def Obligations.CallOverflowHalts : Prop :=
  ∀ (nnn : Addr) (s : State), s.sp.val = 16 →
    exec (.callAddr nnn) s = .next (s.setHalt (some ⟨.stackOverflow, s.pc - 2#16⟩))

/-- R130: with a pending entry RET decrements SP and sets PC to the popped address; no entry is cleared. -/
def Obligations.RetPopsThePc : Prop :=
  ∀ s : State, 0 < s.sp.val →
    ∃ t, exec .ret s = .next t ∧ s.stack[s.sp.val - 1]? = some t.pc ∧ t.sp.val + 1 = s.sp.val ∧
      OnlyWrites [.pc, .sp] s t

/-- R130, R245: RET with SP = 0 is a fatal underflow; nothing but HALT is written. The spec's decision D12. -/
def Obligations.RetUnderflowHalts : Prop :=
  ∀ s : State, s.sp.val = 0 → exec .ret s = .next (s.setHalt (some ⟨.stackUnderflow, s.pc - 2#16⟩))

/-- R28, R130, R132 (the source's property SRC5): any nest of calls that fits the stack, followed by as many returns, ends
at the PC the first call pushed, with SP and the entries below it as before. -/
def Obligations.NestedCallsReturn : Prop :=
  ∀ (targets : List Addr) (s : State), s.sp.val + targets.length ≤ 16 →
    ∃ t, execAll (targets.map Instr.callAddr ++ List.replicate targets.length Instr.ret) s = .next t ∧
      t.pc = s.pc ∧ t.sp = s.sp ∧ (∀ k : Nat, k < s.sp.val → t.stack[k]? = s.stack[k]?) ∧
      OnlyWrites [.stack] s t

/-- R132 (the source's property SRC5): the call that would need a 17th entry is a fatal overflow. -/
def Obligations.SeventeenthCallOverflows : Prop :=
  ∀ (targets : List Addr) (s : State), s.halt = none → s.sp.val + targets.length = 17 →
    ∃ t, execAll (targets.map Instr.callAddr) s = .next t ∧ t.halt = some ⟨.stackOverflow, t.pc - 2#16⟩ ∧ t.sp.val = 16

/-! ### Skips -/

/-- R150 to R152: SE and SNE against NN add 2 to PC when their predicate holds, and nothing else. -/
def Obligations.ImmediateSkips : Prop :=
  ∀ (x : Reg) (nn : Byte) (s : State),
    (∃ t, exec (.seVxNN x nn) s = .next t ∧ OnlyWrites [.pc] s t ∧
      t.pc.toNat = (s.pc.toNat + if s.reg x = nn then 2 else 0) % 65536) ∧
    (∃ t, exec (.sneVxNN x nn) s = .next t ∧ OnlyWrites [.pc] s t ∧
      t.pc.toNat = (s.pc.toNat + if s.reg x = nn then 0 else 2) % 65536)

/-- R150, R153, R154: SE and SNE on two registers. -/
def Obligations.RegisterSkips : Prop :=
  ∀ (x y : Reg) (s : State),
    (∃ t, exec (.seVxVy x y) s = .next t ∧ OnlyWrites [.pc] s t ∧
      t.pc.toNat = (s.pc.toNat + if s.reg x = s.reg y then 2 else 0) % 65536) ∧
    (∃ t, exec (.sneVxVy x y) s = .next t ∧ OnlyWrites [.pc] s t ∧
      t.pc.toNat = (s.pc.toNat + if s.reg x = s.reg y then 0 else 2) % 65536)

/-! ### Registers and the ALU -/

/-- R175, R177: LD stores NN or VY in VX, unchanged, and writes nothing else. -/
def Obligations.LoadsSetOneRegister : Prop :=
  (∀ (x : Reg) (nn : Byte) (s : State),
    ∃ t, exec (.ldVxNN x nn) s = .next t ∧ t.reg x = nn ∧ OnlyWrites [.reg x] s t) ∧
  (∀ (x y : Reg) (s : State),
    ∃ t, exec (.ldVxVy x y) s = .next t ∧ t.reg x = s.reg y ∧ OnlyWrites [.reg x] s t)

/-- R176: ADD Vx,NN wraps mod 256 and has no flag side effect: VF is written only when it is VX. -/
def Obligations.AddImmediateWrapsWithoutFlag : Prop :=
  ∀ (x : Reg) (nn : Byte) (s : State),
    ∃ t, exec (.addVxNN x nn) s = .next t ∧ (t.reg x).toNat = ((s.reg x).toNat + nn.toNat) % 256 ∧
      OnlyWrites [.reg x] s t

/-- R178 to R180: OR, AND and XOR combine VX and VY bit by bit into VX; VF is written only when it is VX, which is the
spec's decision D8. -/
def Obligations.BitwiseCombineEveryBit : Prop :=
  ∀ (x y : Reg) (s : State),
    (∃ t, exec (.orVxVy x y) s = .next t ∧ OnlyWrites [.reg x] s t ∧
      ∀ k : Nat, (t.reg x).getLsbD k = ((s.reg x).getLsbD k || (s.reg y).getLsbD k)) ∧
    (∃ t, exec (.andVxVy x y) s = .next t ∧ OnlyWrites [.reg x] s t ∧
      ∀ k : Nat, (t.reg x).getLsbD k = ((s.reg x).getLsbD k && (s.reg y).getLsbD k)) ∧
    (∃ t, exec (.xorVxVy x y) s = .next t ∧ OnlyWrites [.reg x] s t ∧
      ∀ k : Nat, (t.reg x).getLsbD k = xor ((s.reg x).getLsbD k) ((s.reg y).getLsbD k))

/-- R182, R171, R116: ADD Vx,Vy on the values before the instruction: the sum mod 256, VF = 1 iff it exceeds 255. That
the operands are read before VF is written, which decides Y = F, is the spec's decision D6 (log 18); what VF holds with
X = F is the parameter VF_DEST, its decision D7. -/
def Obligations.AddRegistersWithCarry : Prop :=
  ∀ (x y : Reg) (s : State),
    ∃ t, exec (.addVxVy x y) s = .next t ∧ OnlyWrites [.reg x, .reg regF] s t ∧
      FlagAndResult s t x (255 < (s.reg x).toNat + (s.reg y).toNat) (((s.reg x).toNat + (s.reg y).toNat) % 256)

/-- R183, R171, R116: SUB Vx,Vy: (VX - VY) mod 256, VF = 1 iff VX >= VY, on the values before the instruction, which
decides Y = F: the spec's decision D6 (log 18). With X = F as its decision D7. -/
def Obligations.SubRegistersWithNoBorrow : Prop :=
  ∀ (x y : Reg) (s : State),
    ∃ t, exec (.subVxVy x y) s = .next t ∧ OnlyWrites [.reg x, .reg regF] s t ∧
      FlagAndResult s t x ((s.reg y).toNat ≤ (s.reg x).toNat) (((s.reg x).toNat + 256 - (s.reg y).toNat) % 256)

/-- R185, R171, R116: SUBN Vx,Vy: (VY - VX) mod 256, VF = 1 iff VY >= VX, on the values before the instruction,
which decides Y = F: the spec's decision D6 (log 18). With X = F as its decision D7. -/
def Obligations.SubnRegistersWithNoBorrow : Prop :=
  ∀ (x y : Reg) (s : State),
    ∃ t, exec (.subnVxVy x y) s = .next t ∧ OnlyWrites [.reg x, .reg regF] s t ∧
      FlagAndResult s t x ((s.reg x).toNat ≤ (s.reg y).toNat) (((s.reg y).toNat + 256 - (s.reg x).toNat) % 256)

/-- R184, R94, R171: SHR Vx: VX shifted right by one, VF = the old bit 0, for every Y. With X = F as the spec's decision
D7; that Y is ignored is its decision D5. -/
def Obligations.ShiftRightKeepsTheDroppedBit : Prop :=
  ∀ (x y : Reg) (s : State),
    ∃ t, exec (.shrVx x y) s = .next t ∧ OnlyWrites [.reg x, .reg regF] s t ∧
      FlagAndResult s t x ((s.reg x).toNat % 2 = 1) ((s.reg x).toNat / 2)

/-- R186, R94, R171: SHL Vx: VX shifted left by one mod 256, VF = the old bit 7, for every Y. With X = F as the spec's
decision D7; that Y is ignored is its decision D5. -/
def Obligations.ShiftLeftKeepsTheDroppedBit : Prop :=
  ∀ (x y : Reg) (s : State),
    ∃ t, exec (.shlVx x y) s = .next t ∧ OnlyWrites [.reg x, .reg regF] s t ∧
      FlagAndResult s t x (128 ≤ (s.reg x).toNat) ((s.reg x).toNat * 2 % 256)

/-- R195: I = NNN, nothing else. -/
def Obligations.LdISetsTheIndex : Prop :=
  ∀ (nnn : Addr) (s : State), ∃ t, exec (.ldIAddr nnn) s = .next t ∧ t.i.toNat = nnn.toNat ∧ OnlyWrites [.i] s t

/-- R197: RND draws exactly one byte, whatever NN is, and stores it AND NN; a bit that NN clears is 0. The byte is the free
value of the draw (log 5); one draw per execution is the spec's decision D15. -/
def Obligations.RndMasksOneDraw : Prop :=
  ∀ (x : Reg) (nn : Byte) (s : State),
    ∃ t, exec (.rndVxNN x nn) s = .next t ∧ OnlyWrites [.reg x, .rng] s t ∧ t.rngDraws = s.rngDraws + 1 ∧
      ∀ k : Nat, (t.reg x).getLsbD k = (if nn.getLsbD k then (Config.rngByte s.rngDraws).getLsbD k else false)

/-! ### The display -/

/-- R220: CLS turns every pixel off and sets DIRTY, for any prior display; VF is unchanged. That DIRTY is set on a blank
display too is the spec's decision D17. -/
def Obligations.ClsClearsEveryPixel : Prop :=
  ∀ s : State, ∃ t, exec .cls s = .next t ∧ (∀ px py, t.pix.get px py = false) ∧ t.dirty = true ∧
    OnlyWrites [.pix, .dirty] s t

/-- R221, R222: a DRW whose bytes can be read inverts exactly the pixels its sprite lights, wrapping on both axes, sets VF
to 1 if some pixel went from on to off and to 0 otherwise, and sets DIRTY; the coordinates come from VX and VY before
the instruction. N = 0, the setting of DIRTY and the order of the VF write are the spec's decisions D16 to D18. -/
def Obligations.DrwXorsTheSprite : Prop :=
  ∀ (x y : Reg) (n : Nat) (s : State), WellFormed (.drwVxVyN x y n) → SpriteReadable s n →
    ∃ t, exec (.drwVxVyN x y n) s = .next t ∧ OnlyWrites [.pix, .dirty, .reg regF] s t ∧ t.dirty = true ∧
      (∀ px py, spriteLights s x y n px py → t.pix.get px py = !s.pix.get px py) ∧
      (∀ px py, ¬ spriteLights s x y n px py → t.pix.get px py = s.pix.get px py) ∧
      HoldsFlag (∃ px py, s.pix.get px py = true ∧ t.pix.get px py = false) t

/-- R222, R245: under ADDRESS_POLICY = fault a DRW with a row address at or above 0x1000 raises ADDRESS_FAULT before any
pixel, VF or DIRTY is written. The spec's decisions D9 and D12. -/
def Obligations.DrwAddressFaultHalts : Prop :=
  ∀ (x y : Reg) (n : Nat) (s : State), s.params.addressPolicy = .fault → (∃ r, r < n ∧ 4096 ≤ s.i.toNat + r) →
    exec (.drwVxVyN x y n) s = .next (s.setHalt (some ⟨.addressFault, s.pc - 2#16⟩))

/-- R222: drawing the same sprite twice at the same place restores the display; the second drawing collides exactly when
the sprite lights some pixel that was off before the first (log 17). -/
def Obligations.DrawingTwiceRestoresTheDisplay : Prop :=
  ∀ (x y : Reg) (n : Nat) (s : State), WellFormed (.drwVxVyN x y n) → SpriteReadable s n → x ≠ regF → y ≠ regF →
    ∃ t, execAll [.drwVxVyN x y n, .drwVxVyN x y n] s = .next t ∧ t.pix = s.pix ∧
      HoldsFlag (∃ px py, spriteLights s x y n px py ∧ s.pix.get px py = false) t

/-- R30, R223: of all the host's operations only Reset, and a cycle that executes CLS or DRW, change the display. -/
def Obligations.OnlyClsAndDrwWriteTheDisplay : Prop :=
  ∀ (op : HostOp) (s t : State), hostStep op s = .next t → t.pix ≠ s.pix →
    op = .reset ∨
      op = .cycle ∧ ∃ w, fetch s = some w ∧ (decode w = .instr .cls ∨ ∃ x y n, decode w = .instr (.drwVxVyN x y n))

/-- R48: the flattened view has pixel (x, y) at index 64y + x. The spec's decision D28. -/
def Obligations.FlattenedPixelIndex : Prop :=
  ∀ (s : State) (x : Fin 64) (y : Fin 32), (flattenDisplay (view s).pix)[64 * y.val + x.val]? = some (s.pix.get x y)

/-! ### Decoding -/

/-- R90, R91: decoding the encoding of a well-formed instruction gives it back, every operand at every value its field
admits, the Y of SHR and SHL too. The patterns are the spec's decisions D1 and D2. -/
def Obligations.DecodeOfEncode : Prop :=
  ∀ i : Instr, WellFormed i → decode (encode i) = .instr i ∧ decodeBytes (encodeBytes i) = .instr i

/-- R90, R91, R93: a word that decodes to an instruction is that instruction's only encoding: no bit of it is dropped.
The spec's decisions D1 to D3. -/
def Obligations.EncodeOfDecode : Prop :=
  ∀ (w : Word) (i : Instr), decode w = .instr i → WellFormed i ∧ encode i = w

/-- R90: a word that decodes to an instruction selects that instruction's row of the opcode table and no other; a word
that is unknown selects none. The spec's decisions D1 and D3. -/
def Obligations.DecodeAgreesWithTheTable : Prop :=
  ∀ w : Word, opcodeTable.filter (fun r => r.selects w) =
    match decode w with
    | .instr i => [opcodeRow i]
    | .unknown _ => []

/-- R95: the unknown words are exactly those of the six spaces of the table, each reported by its own name. The spec's
decisions D3 and D4. -/
def Obligations.UnknownSpacesAreExact : Prop :=
  ∀ w : Word,
    (decode w = .unknown .class0 ↔ w.toNat / 4096 = 0x0 ∧ w ≠ 0x00E0#16 ∧ w ≠ 0x00EE#16) ∧
    (decode w = .unknown .seLowNibble ↔ w.toNat / 4096 = 0x5 ∧ w.toNat % 16 ≠ 0) ∧
    (decode w = .unknown .aluSubOp ↔
      w.toNat / 4096 = 0x8 ∧ 8 ≤ w.toNat % 16 ∧ w.toNat % 16 ≠ 0xE) ∧
    (decode w = .unknown .sneLowNibble ↔ w.toNat / 4096 = 0x9 ∧ w.toNat % 16 ≠ 0) ∧
    (decode w = .unknown .classE ↔ w.toNat / 4096 = 0xE) ∧
    (decode w = .unknown .classF ↔ w.toNat / 4096 = 0xF) ∧
    decode w ≠ .unknown .tooShort

/-- R90, R92, R95: words written out from the patterns of the spec decode to what they stand for. The spec's decisions D1
to D5. -/
def Obligations.SampleWordsDecode : Prop :=
  decode 0x00E0#16 = .instr .cls ∧ decode 0x1ABC#16 = .instr (.jpAddr 0xABC#12) ∧
  decode 0x5120#16 = .instr (.seVxVy 1 2) ∧ decode 0x9120#16 = .instr (.sneVxVy 1 2) ∧
  decode 0x8AB5#16 = .instr (.subVxVy 0xA 0xB) ∧ decode 0xC30F#16 = .instr (.rndVxNN 3 0x0F#8) ∧
  decode 0xD125#16 = .instr (.drwVxVyN 1 2 5) ∧ decode 0xE09E#16 = .unknown .classE

/-! ### Reset, Load and the host's other operations -/

/-- R37, R280: what Reset leaves, from any state, and what the machine starts with (R281): every field of the table of R37
but MEM, whose two rows are ResetMemoryHoldsTheFont. DIRTY, KEY, HALT and the construction are the spec's decisions D20, D12 and D33. -/
def Obligations.ResetValues : Prop :=
  ∀ r : State, (r = State.reset ∨ ∃ s : State, r = s.resetMachine) →
    (∀ x, r.reg x = 0x00#8) ∧ r.i = 0x0000#16 ∧ r.pc = 0x0200#16 ∧ r.sp.val = 0 ∧ (∀ k : Fin 16, r.stack[k] = 0x0000#16) ∧
    r.dt = 0x00#8 ∧ r.st = 0x00#8 ∧ (∀ px py, r.pix.get px py = false) ∧ r.dirty = false ∧
    (∀ k : Fin 16, r.key[k] = false) ∧ r.halt = none

/-- R27, R37 (the MEM rows): after Reset, from any state, and at the start (R281, the spec's decision D33), byte r of glyph
c is at FONT_BASE + 5c + r, and every other byte is 0x00. FONT and FONT_BASE are parameters, the spec's decision D19. -/
def Obligations.ResetMemoryHoldsTheFont : Prop :=
  ∀ s : State, (s = State.reset ∨ ∃ before : State, s = before.resetMachine) → s.params.wf →
    (∀ (c : Fin 16) (r : Fin 5), s.byteAt (s.params.fontBase.toNat + 5 * c.val + r.val) = s.params.font[c][r]) ∧
    (∀ a : Nat, a < s.params.fontBase.toNat ∨ s.params.fontBase.toNat + 80 ≤ a → s.byteAt a = 0x00#8)

/-- R286: a buffer of exactly 3584 bytes is loaded, to 0x200 up to 0xFFF; one of 3585 bytes is a capacity error and the
state is unmodified. -/
def Obligations.LoadCapacityBoundary : Prop :=
  ∀ (bytes : List Byte) (s : State), Memory.wf s.params s.mem →
    (bytes.length = 3584 → loadResult bytes = .ok ∧
      ∀ a : Nat, 0x200 ≤ a → a ≤ 0xFFF → some ((load bytes s).byteAt a) = bytes[a - 0x200]?) ∧
    (bytes.length = 3585 → loadResult bytes = .capacityError 3585 ∧ load bytes s = s)

/-- R285, R287: Load copies the buffer to 0x200 up and writes nothing else, HALT and PC included; too long a buffer
changes nothing. That it may run at any time and leaves every other field is the spec's decision D21. -/
def Obligations.LoadCopiesTheBufferOnly : Prop :=
  ∀ (bytes : List Byte) (s : State), Memory.wf s.params s.mem →
    (bytes.length ≤ 3584 → loadResult bytes = .ok ∧
      (∃ m, load bytes s = s.setMem m) ∧
      (∀ k : Nat, k < bytes.length → some ((load bytes s).byteAt (0x200 + k)) = bytes[k]?) ∧
      (∀ a : Nat, a < 0x200 ∨ 0x200 + bytes.length ≤ a → (load bytes s).byteAt a = s.byteAt a)) ∧
    (3584 < bytes.length → loadResult bytes = .capacityError bytes.length ∧ load bytes s = s)

/-- R260: Tick decrements each timer, clamped at 0, and changes nothing else. -/
def Obligations.TickDecrementsEachTimer : Prop :=
  ∀ s : State, s.halt = none →
    (tick s).dt.toNat = s.dt.toNat - 1 ∧ (tick s).st.toNat = s.st.toNat - 1 ∧
      tick s = { s with dt := (tick s).dt, st := (tick s).st }

/-- R261: after n ticks each timer has lost n, clamped at 0: a timer at n reaches 0 after exactly n ticks and stays. -/
def Obligations.TimersCountDownIndependently : Prop :=
  ∀ (n : Nat) (s : State), s.halt = none →
    (tick^[n] s).dt.toNat = s.dt.toNat - n ∧ (tick^[n] s).st.toNat = s.st.toNat - n

/-- R47: ClearDirty sets DIRTY to 0 and changes nothing else. -/
def Obligations.ClearDirtyClearsOnlyDirty : Prop :=
  ∀ s : State, hostStep .clearDirty s = .next (clearDirty s) ∧ (clearDirty s).dirty = false ∧
    OnlyWrites [.dirty] s (clearDirty s)

/-- R46: SetKey sets one key, in a halted state too, and changes nothing else. That it is allowed while HALT is set is the
spec's decision D29. -/
def Obligations.SetKeySetsOneKey : Prop :=
  ∀ (k : Fin 16) (b : Bool) (s : State),
    (setKey k b s).key[k] = b ∧ (∀ j : Fin 16, j ≠ k → (setKey k b s).key[j] = s.key[j]) ∧
      setKey k b s = { s with key := (setKey k b s).key }

/-- R49: the sound output is the value of ST, and the host should emit a tone exactly when it is not 0. -/
def Obligations.ToneExactlyWhenSoundTimerNonzero : Prop :=
  ∀ s : State, (view s).st = s.st ∧ (toneOn s = true ↔ (view s).st.toNat ≠ 0) ∧ hostStep .view s = .next s

/-- R119, R249, R287: no operation but Reset takes the machine out of a fatal halt or changes its record, and Reset does.
The spec's decision D12. -/
def Obligations.OnlyResetClearsHalt : Prop :=
  ∀ (op : HostOp) (s t : State) (h : HaltRecord), s.halt = some h → hostStep op s = .next t →
    t.halt = if op = .reset then none else some h

/-! ### Invariants -/

/-- R25, R26, R29, R33, R37, R68: the invariant holds after Reset, whatever the parameters. -/
def Obligations.ResetMeetsTheInvariant : Prop := MachineInv State.reset ∧ ∀ s : State, MachineInv s.resetMachine

/-- R25, R29, R33, R68: every step keeps the invariant: the memory stays canonical, the reserved region keeps its reset
contents, I stays at most 0xFFF, the timers stay 0, and HALT agrees with the state. -/
def Obligations.StepKeepsTheInvariant : Prop := ∀ s t : State, MachineInv s → step s = .next t → MachineInv t

/-- R41, R52, R68: every sequence of the host's operations, in any order, keeps the invariant: the font is never
overwritten by a loaded program. -/
def Obligations.EveryInterleavingKeepsTheInvariant : Prop :=
  ∀ (ops : List HostOp) (s t : State), MachineInv s → hostRun ops s = .next t → MachineInv t

/-- R20, R26, R70 with the model's form of memory (log 14): two canonical memories that read alike at every address of
the space are the same data. -/
def Obligations.CanonicalMemoryIsDeterminedByReads : Prop :=
  ∀ (p : Params) (m m' : Memory), Memory.wf p m → Memory.wf p m' →
    (∀ a : Nat, a < 4096 → Memory.read p m a = Memory.read p m' a) → m = m'
end

