-- ==== Sys2Proof/Laws/State.lean ====
section
/-! SUPPORT. One lemma per field per update of the state, true by unfolding, so that no later proof unfolds a record
update; then the views of the state (a register, a byte of memory) after each update. -/

namespace Sys2Proof.Machine

@[simp] theorem State.setMem_mem (s : State) (m : Memory) : (s.setMem m).mem = m := rfl
@[simp] theorem State.setMem_v (s : State) (m : Memory) : (s.setMem m).v = s.v := rfl
@[simp] theorem State.setMem_i (s : State) (m : Memory) : (s.setMem m).i = s.i := rfl
@[simp] theorem State.setMem_pc (s : State) (m : Memory) : (s.setMem m).pc = s.pc := rfl
@[simp] theorem State.setMem_sp (s : State) (m : Memory) : (s.setMem m).sp = s.sp := rfl
@[simp] theorem State.setMem_stack (s : State) (m : Memory) : (s.setMem m).stack = s.stack := rfl
@[simp] theorem State.setMem_dt (s : State) (m : Memory) : (s.setMem m).dt = s.dt := rfl
@[simp] theorem State.setMem_st (s : State) (m : Memory) : (s.setMem m).st = s.st := rfl
@[simp] theorem State.setMem_pix (s : State) (m : Memory) : (s.setMem m).pix = s.pix := rfl
@[simp] theorem State.setMem_dirty (s : State) (m : Memory) : (s.setMem m).dirty = s.dirty := rfl
@[simp] theorem State.setMem_key (s : State) (m : Memory) : (s.setMem m).key = s.key := rfl
@[simp] theorem State.setMem_halt (s : State) (m : Memory) : (s.setMem m).halt = s.halt := rfl
@[simp] theorem State.setMem_params (s : State) (m : Memory) : (s.setMem m).params = s.params := rfl
@[simp] theorem State.setMem_rngDraws (s : State) (m : Memory) : (s.setMem m).rngDraws = s.rngDraws := rfl

@[simp] theorem State.setReg_mem (s : State) (x : Reg) (b : Byte) : (s.setReg x b).mem = s.mem := rfl
@[simp] theorem State.setReg_v (s : State) (x : Reg) (b : Byte) : (s.setReg x b).v = s.v.set x.val b x.isLt := rfl
@[simp] theorem State.setReg_i (s : State) (x : Reg) (b : Byte) : (s.setReg x b).i = s.i := rfl
@[simp] theorem State.setReg_pc (s : State) (x : Reg) (b : Byte) : (s.setReg x b).pc = s.pc := rfl
@[simp] theorem State.setReg_sp (s : State) (x : Reg) (b : Byte) : (s.setReg x b).sp = s.sp := rfl
@[simp] theorem State.setReg_stack (s : State) (x : Reg) (b : Byte) : (s.setReg x b).stack = s.stack := rfl
@[simp] theorem State.setReg_dt (s : State) (x : Reg) (b : Byte) : (s.setReg x b).dt = s.dt := rfl
@[simp] theorem State.setReg_st (s : State) (x : Reg) (b : Byte) : (s.setReg x b).st = s.st := rfl
@[simp] theorem State.setReg_pix (s : State) (x : Reg) (b : Byte) : (s.setReg x b).pix = s.pix := rfl
@[simp] theorem State.setReg_dirty (s : State) (x : Reg) (b : Byte) : (s.setReg x b).dirty = s.dirty := rfl
@[simp] theorem State.setReg_key (s : State) (x : Reg) (b : Byte) : (s.setReg x b).key = s.key := rfl
@[simp] theorem State.setReg_halt (s : State) (x : Reg) (b : Byte) : (s.setReg x b).halt = s.halt := rfl
@[simp] theorem State.setReg_params (s : State) (x : Reg) (b : Byte) : (s.setReg x b).params = s.params := rfl
@[simp] theorem State.setReg_rngDraws (s : State) (x : Reg) (b : Byte) : (s.setReg x b).rngDraws = s.rngDraws := rfl

@[simp] theorem State.setI_mem (s : State) (w : Word) : (s.setI w).mem = s.mem := rfl
@[simp] theorem State.setI_v (s : State) (w : Word) : (s.setI w).v = s.v := rfl
@[simp] theorem State.setI_i (s : State) (w : Word) : (s.setI w).i = w := rfl
@[simp] theorem State.setI_pc (s : State) (w : Word) : (s.setI w).pc = s.pc := rfl
@[simp] theorem State.setI_sp (s : State) (w : Word) : (s.setI w).sp = s.sp := rfl
@[simp] theorem State.setI_stack (s : State) (w : Word) : (s.setI w).stack = s.stack := rfl
@[simp] theorem State.setI_dt (s : State) (w : Word) : (s.setI w).dt = s.dt := rfl
@[simp] theorem State.setI_st (s : State) (w : Word) : (s.setI w).st = s.st := rfl
@[simp] theorem State.setI_pix (s : State) (w : Word) : (s.setI w).pix = s.pix := rfl
@[simp] theorem State.setI_dirty (s : State) (w : Word) : (s.setI w).dirty = s.dirty := rfl
@[simp] theorem State.setI_key (s : State) (w : Word) : (s.setI w).key = s.key := rfl
@[simp] theorem State.setI_halt (s : State) (w : Word) : (s.setI w).halt = s.halt := rfl
@[simp] theorem State.setI_params (s : State) (w : Word) : (s.setI w).params = s.params := rfl
@[simp] theorem State.setI_rngDraws (s : State) (w : Word) : (s.setI w).rngDraws = s.rngDraws := rfl

@[simp] theorem State.setPc_mem (s : State) (w : Word) : (s.setPc w).mem = s.mem := rfl
@[simp] theorem State.setPc_v (s : State) (w : Word) : (s.setPc w).v = s.v := rfl
@[simp] theorem State.setPc_i (s : State) (w : Word) : (s.setPc w).i = s.i := rfl
@[simp] theorem State.setPc_pc (s : State) (w : Word) : (s.setPc w).pc = w := rfl
@[simp] theorem State.setPc_sp (s : State) (w : Word) : (s.setPc w).sp = s.sp := rfl
@[simp] theorem State.setPc_stack (s : State) (w : Word) : (s.setPc w).stack = s.stack := rfl
@[simp] theorem State.setPc_dt (s : State) (w : Word) : (s.setPc w).dt = s.dt := rfl
@[simp] theorem State.setPc_st (s : State) (w : Word) : (s.setPc w).st = s.st := rfl
@[simp] theorem State.setPc_pix (s : State) (w : Word) : (s.setPc w).pix = s.pix := rfl
@[simp] theorem State.setPc_dirty (s : State) (w : Word) : (s.setPc w).dirty = s.dirty := rfl
@[simp] theorem State.setPc_key (s : State) (w : Word) : (s.setPc w).key = s.key := rfl
@[simp] theorem State.setPc_halt (s : State) (w : Word) : (s.setPc w).halt = s.halt := rfl
@[simp] theorem State.setPc_params (s : State) (w : Word) : (s.setPc w).params = s.params := rfl
@[simp] theorem State.setPc_rngDraws (s : State) (w : Word) : (s.setPc w).rngDraws = s.rngDraws := rfl

@[simp] theorem State.advancePc_mem (s : State) : (s.advancePc).mem = s.mem := rfl
@[simp] theorem State.advancePc_v (s : State) : (s.advancePc).v = s.v := rfl
@[simp] theorem State.advancePc_i (s : State) : (s.advancePc).i = s.i := rfl
@[simp] theorem State.advancePc_pc (s : State) : (s.advancePc).pc = s.pc + 2#16 := rfl
@[simp] theorem State.advancePc_sp (s : State) : (s.advancePc).sp = s.sp := rfl
@[simp] theorem State.advancePc_stack (s : State) : (s.advancePc).stack = s.stack := rfl
@[simp] theorem State.advancePc_dt (s : State) : (s.advancePc).dt = s.dt := rfl
@[simp] theorem State.advancePc_st (s : State) : (s.advancePc).st = s.st := rfl
@[simp] theorem State.advancePc_pix (s : State) : (s.advancePc).pix = s.pix := rfl
@[simp] theorem State.advancePc_dirty (s : State) : (s.advancePc).dirty = s.dirty := rfl
@[simp] theorem State.advancePc_key (s : State) : (s.advancePc).key = s.key := rfl
@[simp] theorem State.advancePc_halt (s : State) : (s.advancePc).halt = s.halt := rfl
@[simp] theorem State.advancePc_params (s : State) : (s.advancePc).params = s.params := rfl
@[simp] theorem State.advancePc_rngDraws (s : State) : (s.advancePc).rngDraws = s.rngDraws := rfl

@[simp] theorem State.setTimers_mem (s : State) (d t : Byte) : (s.setTimers d t).mem = s.mem := rfl
@[simp] theorem State.setTimers_v (s : State) (d t : Byte) : (s.setTimers d t).v = s.v := rfl
@[simp] theorem State.setTimers_i (s : State) (d t : Byte) : (s.setTimers d t).i = s.i := rfl
@[simp] theorem State.setTimers_pc (s : State) (d t : Byte) : (s.setTimers d t).pc = s.pc := rfl
@[simp] theorem State.setTimers_sp (s : State) (d t : Byte) : (s.setTimers d t).sp = s.sp := rfl
@[simp] theorem State.setTimers_stack (s : State) (d t : Byte) : (s.setTimers d t).stack = s.stack := rfl
@[simp] theorem State.setTimers_dt (s : State) (d t : Byte) : (s.setTimers d t).dt = d := rfl
@[simp] theorem State.setTimers_st (s : State) (d t : Byte) : (s.setTimers d t).st = t := rfl
@[simp] theorem State.setTimers_pix (s : State) (d t : Byte) : (s.setTimers d t).pix = s.pix := rfl
@[simp] theorem State.setTimers_dirty (s : State) (d t : Byte) : (s.setTimers d t).dirty = s.dirty := rfl
@[simp] theorem State.setTimers_key (s : State) (d t : Byte) : (s.setTimers d t).key = s.key := rfl
@[simp] theorem State.setTimers_halt (s : State) (d t : Byte) : (s.setTimers d t).halt = s.halt := rfl
@[simp] theorem State.setTimers_params (s : State) (d t : Byte) : (s.setTimers d t).params = s.params := rfl
@[simp] theorem State.setTimers_rngDraws (s : State) (d t : Byte) : (s.setTimers d t).rngDraws = s.rngDraws := rfl

@[simp] theorem State.setKey_mem (s : State) (k : Fin 16) (b : Bool) : (s.setKey k b).mem = s.mem := rfl
@[simp] theorem State.setKey_v (s : State) (k : Fin 16) (b : Bool) : (s.setKey k b).v = s.v := rfl
@[simp] theorem State.setKey_i (s : State) (k : Fin 16) (b : Bool) : (s.setKey k b).i = s.i := rfl
@[simp] theorem State.setKey_pc (s : State) (k : Fin 16) (b : Bool) : (s.setKey k b).pc = s.pc := rfl
@[simp] theorem State.setKey_sp (s : State) (k : Fin 16) (b : Bool) : (s.setKey k b).sp = s.sp := rfl
@[simp] theorem State.setKey_stack (s : State) (k : Fin 16) (b : Bool) : (s.setKey k b).stack = s.stack := rfl
@[simp] theorem State.setKey_dt (s : State) (k : Fin 16) (b : Bool) : (s.setKey k b).dt = s.dt := rfl
@[simp] theorem State.setKey_st (s : State) (k : Fin 16) (b : Bool) : (s.setKey k b).st = s.st := rfl
@[simp] theorem State.setKey_pix (s : State) (k : Fin 16) (b : Bool) : (s.setKey k b).pix = s.pix := rfl
@[simp] theorem State.setKey_dirty (s : State) (k : Fin 16) (b : Bool) : (s.setKey k b).dirty = s.dirty := rfl
@[simp] theorem State.setKey_key (s : State) (k : Fin 16) (b : Bool) : (s.setKey k b).key = s.key.set k.val b k.isLt := rfl
@[simp] theorem State.setKey_halt (s : State) (k : Fin 16) (b : Bool) : (s.setKey k b).halt = s.halt := rfl
@[simp] theorem State.setKey_params (s : State) (k : Fin 16) (b : Bool) : (s.setKey k b).params = s.params := rfl
@[simp] theorem State.setKey_rngDraws (s : State) (k : Fin 16) (b : Bool) : (s.setKey k b).rngDraws = s.rngDraws := rfl

@[simp] theorem State.setPix_mem (s : State) (d : Display) : (s.setPix d).mem = s.mem := rfl
@[simp] theorem State.setPix_v (s : State) (d : Display) : (s.setPix d).v = s.v := rfl
@[simp] theorem State.setPix_i (s : State) (d : Display) : (s.setPix d).i = s.i := rfl
@[simp] theorem State.setPix_pc (s : State) (d : Display) : (s.setPix d).pc = s.pc := rfl
@[simp] theorem State.setPix_sp (s : State) (d : Display) : (s.setPix d).sp = s.sp := rfl
@[simp] theorem State.setPix_stack (s : State) (d : Display) : (s.setPix d).stack = s.stack := rfl
@[simp] theorem State.setPix_dt (s : State) (d : Display) : (s.setPix d).dt = s.dt := rfl
@[simp] theorem State.setPix_st (s : State) (d : Display) : (s.setPix d).st = s.st := rfl
@[simp] theorem State.setPix_pix (s : State) (d : Display) : (s.setPix d).pix = d := rfl
@[simp] theorem State.setPix_dirty (s : State) (d : Display) : (s.setPix d).dirty = s.dirty := rfl
@[simp] theorem State.setPix_key (s : State) (d : Display) : (s.setPix d).key = s.key := rfl
@[simp] theorem State.setPix_halt (s : State) (d : Display) : (s.setPix d).halt = s.halt := rfl
@[simp] theorem State.setPix_params (s : State) (d : Display) : (s.setPix d).params = s.params := rfl
@[simp] theorem State.setPix_rngDraws (s : State) (d : Display) : (s.setPix d).rngDraws = s.rngDraws := rfl

@[simp] theorem State.setDirty_mem (s : State) (b : Bool) : (s.setDirty b).mem = s.mem := rfl
@[simp] theorem State.setDirty_v (s : State) (b : Bool) : (s.setDirty b).v = s.v := rfl
@[simp] theorem State.setDirty_i (s : State) (b : Bool) : (s.setDirty b).i = s.i := rfl
@[simp] theorem State.setDirty_pc (s : State) (b : Bool) : (s.setDirty b).pc = s.pc := rfl
@[simp] theorem State.setDirty_sp (s : State) (b : Bool) : (s.setDirty b).sp = s.sp := rfl
@[simp] theorem State.setDirty_stack (s : State) (b : Bool) : (s.setDirty b).stack = s.stack := rfl
@[simp] theorem State.setDirty_dt (s : State) (b : Bool) : (s.setDirty b).dt = s.dt := rfl
@[simp] theorem State.setDirty_st (s : State) (b : Bool) : (s.setDirty b).st = s.st := rfl
@[simp] theorem State.setDirty_pix (s : State) (b : Bool) : (s.setDirty b).pix = s.pix := rfl
@[simp] theorem State.setDirty_dirty (s : State) (b : Bool) : (s.setDirty b).dirty = b := rfl
@[simp] theorem State.setDirty_key (s : State) (b : Bool) : (s.setDirty b).key = s.key := rfl
@[simp] theorem State.setDirty_halt (s : State) (b : Bool) : (s.setDirty b).halt = s.halt := rfl
@[simp] theorem State.setDirty_params (s : State) (b : Bool) : (s.setDirty b).params = s.params := rfl
@[simp] theorem State.setDirty_rngDraws (s : State) (b : Bool) : (s.setDirty b).rngDraws = s.rngDraws := rfl

@[simp] theorem State.drawRng_mem (s : State) : (s.drawRng.2).mem = s.mem := rfl
@[simp] theorem State.drawRng_v (s : State) : (s.drawRng.2).v = s.v := rfl
@[simp] theorem State.drawRng_i (s : State) : (s.drawRng.2).i = s.i := rfl
@[simp] theorem State.drawRng_pc (s : State) : (s.drawRng.2).pc = s.pc := rfl
@[simp] theorem State.drawRng_sp (s : State) : (s.drawRng.2).sp = s.sp := rfl
@[simp] theorem State.drawRng_stack (s : State) : (s.drawRng.2).stack = s.stack := rfl
@[simp] theorem State.drawRng_dt (s : State) : (s.drawRng.2).dt = s.dt := rfl
@[simp] theorem State.drawRng_st (s : State) : (s.drawRng.2).st = s.st := rfl
@[simp] theorem State.drawRng_pix (s : State) : (s.drawRng.2).pix = s.pix := rfl
@[simp] theorem State.drawRng_dirty (s : State) : (s.drawRng.2).dirty = s.dirty := rfl
@[simp] theorem State.drawRng_key (s : State) : (s.drawRng.2).key = s.key := rfl
@[simp] theorem State.drawRng_halt (s : State) : (s.drawRng.2).halt = s.halt := rfl
@[simp] theorem State.drawRng_params (s : State) : (s.drawRng.2).params = s.params := rfl
@[simp] theorem State.drawRng_rngDraws (s : State) : (s.drawRng.2).rngDraws = s.rngDraws + 1 := rfl

@[simp] theorem State.setHalt_mem (s : State) (h : Option HaltRecord) : (s.setHalt h).mem = s.mem := rfl
@[simp] theorem State.setHalt_v (s : State) (h : Option HaltRecord) : (s.setHalt h).v = s.v := rfl
@[simp] theorem State.setHalt_i (s : State) (h : Option HaltRecord) : (s.setHalt h).i = s.i := rfl
@[simp] theorem State.setHalt_pc (s : State) (h : Option HaltRecord) : (s.setHalt h).pc = s.pc := rfl
@[simp] theorem State.setHalt_sp (s : State) (h : Option HaltRecord) : (s.setHalt h).sp = s.sp := rfl
@[simp] theorem State.setHalt_stack (s : State) (h : Option HaltRecord) : (s.setHalt h).stack = s.stack := rfl
@[simp] theorem State.setHalt_dt (s : State) (h : Option HaltRecord) : (s.setHalt h).dt = s.dt := rfl
@[simp] theorem State.setHalt_st (s : State) (h : Option HaltRecord) : (s.setHalt h).st = s.st := rfl
@[simp] theorem State.setHalt_pix (s : State) (h : Option HaltRecord) : (s.setHalt h).pix = s.pix := rfl
@[simp] theorem State.setHalt_dirty (s : State) (h : Option HaltRecord) : (s.setHalt h).dirty = s.dirty := rfl
@[simp] theorem State.setHalt_key (s : State) (h : Option HaltRecord) : (s.setHalt h).key = s.key := rfl
@[simp] theorem State.setHalt_halt (s : State) (h : Option HaltRecord) : (s.setHalt h).halt = h := rfl
@[simp] theorem State.setHalt_params (s : State) (h : Option HaltRecord) : (s.setHalt h).params = s.params := rfl
@[simp] theorem State.setHalt_rngDraws (s : State) (h : Option HaltRecord) : (s.setHalt h).rngDraws = s.rngDraws := rfl

@[simp] theorem raiseFatal_mem (s : State) (k : FatalKind) (ia : Word) : (raiseFatal k ia s).mem = s.mem := rfl
@[simp] theorem raiseFatal_v (s : State) (k : FatalKind) (ia : Word) : (raiseFatal k ia s).v = s.v := rfl
@[simp] theorem raiseFatal_i (s : State) (k : FatalKind) (ia : Word) : (raiseFatal k ia s).i = s.i := rfl
@[simp] theorem raiseFatal_pc (s : State) (k : FatalKind) (ia : Word) : (raiseFatal k ia s).pc = s.pc := rfl
@[simp] theorem raiseFatal_sp (s : State) (k : FatalKind) (ia : Word) : (raiseFatal k ia s).sp = s.sp := rfl
@[simp] theorem raiseFatal_stack (s : State) (k : FatalKind) (ia : Word) : (raiseFatal k ia s).stack = s.stack := rfl
@[simp] theorem raiseFatal_dt (s : State) (k : FatalKind) (ia : Word) : (raiseFatal k ia s).dt = s.dt := rfl
@[simp] theorem raiseFatal_st (s : State) (k : FatalKind) (ia : Word) : (raiseFatal k ia s).st = s.st := rfl
@[simp] theorem raiseFatal_pix (s : State) (k : FatalKind) (ia : Word) : (raiseFatal k ia s).pix = s.pix := rfl
@[simp] theorem raiseFatal_dirty (s : State) (k : FatalKind) (ia : Word) : (raiseFatal k ia s).dirty = s.dirty := rfl
@[simp] theorem raiseFatal_key (s : State) (k : FatalKind) (ia : Word) : (raiseFatal k ia s).key = s.key := rfl
@[simp] theorem raiseFatal_halt (s : State) (k : FatalKind) (ia : Word) : (raiseFatal k ia s).halt = some ⟨k, ia⟩ := rfl
@[simp] theorem raiseFatal_params (s : State) (k : FatalKind) (ia : Word) : (raiseFatal k ia s).params = s.params := rfl
@[simp] theorem raiseFatal_rngDraws (s : State) (k : FatalKind) (ia : Word) : (raiseFatal k ia s).rngDraws = s.rngDraws := rfl

@[simp] theorem State.resetMachine_mem (s : State) : s.resetMachine.mem = State.reset.mem := rfl
@[simp] theorem State.resetMachine_v (s : State) : s.resetMachine.v = State.reset.v := rfl
@[simp] theorem State.resetMachine_i (s : State) : s.resetMachine.i = State.reset.i := rfl
@[simp] theorem State.resetMachine_pc (s : State) : s.resetMachine.pc = State.reset.pc := rfl
@[simp] theorem State.resetMachine_sp (s : State) : s.resetMachine.sp = State.reset.sp := rfl
@[simp] theorem State.resetMachine_stack (s : State) : s.resetMachine.stack = State.reset.stack := rfl
@[simp] theorem State.resetMachine_dt (s : State) : s.resetMachine.dt = State.reset.dt := rfl
@[simp] theorem State.resetMachine_st (s : State) : s.resetMachine.st = State.reset.st := rfl
@[simp] theorem State.resetMachine_pix (s : State) : s.resetMachine.pix = State.reset.pix := rfl
@[simp] theorem State.resetMachine_dirty (s : State) : s.resetMachine.dirty = State.reset.dirty := rfl
@[simp] theorem State.resetMachine_key (s : State) : s.resetMachine.key = State.reset.key := rfl
@[simp] theorem State.resetMachine_halt (s : State) : s.resetMachine.halt = State.reset.halt := rfl
@[simp] theorem State.resetMachine_params (s : State) : s.resetMachine.params = s.params := rfl
@[simp] theorem State.resetMachine_rngDraws (s : State) : s.resetMachine.rngDraws = s.rngDraws := rfl

/-! ### The views -/

@[simp] theorem State.setReg_reg_same (s : State) (x : Reg) (b : Byte) : (s.setReg x b).reg x = b := by
  simp [State.reg]

theorem State.setReg_reg_other (s : State) {x y : Reg} (b : Byte) (h : y ≠ x) : (s.setReg x b).reg y = s.reg y := by
  simp [State.reg, Fin.val_inj, Ne.symm h]

theorem State.setReg_reg (s : State) (x y : Reg) (b : Byte) :
    (s.setReg x b).reg y = if y = x then b else s.reg y := by
  by_cases h : y = x
  · simp [h]
  · simp [h, State.setReg_reg_other s b h]

@[simp] theorem State.setReg_same (s : State) (x : Reg) : s.setReg x (s.reg x) = s := by
  simp [State.setReg, State.reg]

@[simp] theorem State.setPc_setPc (s : State) (w u : Word) : (s.setPc w).setPc u = s.setPc u := rfl

@[simp] theorem State.setPc_same (s : State) : s.setPc s.pc = s := rfl

@[simp] theorem State.drawRng_byte (s : State) : s.drawRng.1 = Config.rngByte s.rngDraws := rfl

/-- The address of the instruction is recovered after the advance (R112). -/
@[simp] theorem State.advancePc_ia (s : State) : s.advancePc.ia = s.pc := by
  simp [State.ia]

@[simp] theorem State.setMem_reg (s : State) (m : Memory) (y : Reg) : (s.setMem m).reg y = s.reg y := rfl
@[simp] theorem State.setI_reg (s : State) (w : Word) (y : Reg) : (s.setI w).reg y = s.reg y := rfl
@[simp] theorem State.setPc_reg (s : State) (w : Word) (y : Reg) : (s.setPc w).reg y = s.reg y := rfl
@[simp] theorem State.advancePc_reg (s : State) (y : Reg) : (s.advancePc).reg y = s.reg y := rfl
@[simp] theorem State.setTimers_reg (s : State) (d t : Byte) (y : Reg) : (s.setTimers d t).reg y = s.reg y := rfl
@[simp] theorem State.setKey_reg (s : State) (k : Fin 16) (b : Bool) (y : Reg) : (s.setKey k b).reg y = s.reg y := rfl
@[simp] theorem State.setPix_reg (s : State) (d : Display) (y : Reg) : (s.setPix d).reg y = s.reg y := rfl
@[simp] theorem State.setDirty_reg (s : State) (b : Bool) (y : Reg) : (s.setDirty b).reg y = s.reg y := rfl
@[simp] theorem State.drawRng_reg (s : State) (y : Reg) : (s.drawRng.2).reg y = s.reg y := rfl
@[simp] theorem State.setHalt_reg (s : State) (h : Option HaltRecord) (y : Reg) : (s.setHalt h).reg y = s.reg y := rfl
@[simp] theorem raiseFatal_reg (s : State) (k : FatalKind) (ia : Word) (y : Reg) : (raiseFatal k ia s).reg y = s.reg y := rfl
@[simp] theorem State.setReg_byteAt (s : State) (x : Reg) (b : Byte) (a : Nat) : (s.setReg x b).byteAt a = s.byteAt a := rfl
@[simp] theorem State.setI_byteAt (s : State) (w : Word) (a : Nat) : (s.setI w).byteAt a = s.byteAt a := rfl
@[simp] theorem State.setPc_byteAt (s : State) (w : Word) (a : Nat) : (s.setPc w).byteAt a = s.byteAt a := rfl
@[simp] theorem State.advancePc_byteAt (s : State) (a : Nat) : (s.advancePc).byteAt a = s.byteAt a := rfl
@[simp] theorem State.setTimers_byteAt (s : State) (d t : Byte) (a : Nat) : (s.setTimers d t).byteAt a = s.byteAt a := rfl
@[simp] theorem State.setKey_byteAt (s : State) (k : Fin 16) (b : Bool) (a : Nat) : (s.setKey k b).byteAt a = s.byteAt a := rfl
@[simp] theorem State.setPix_byteAt (s : State) (d : Display) (a : Nat) : (s.setPix d).byteAt a = s.byteAt a := rfl
@[simp] theorem State.setDirty_byteAt (s : State) (b : Bool) (a : Nat) : (s.setDirty b).byteAt a = s.byteAt a := rfl
@[simp] theorem State.drawRng_byteAt (s : State) (a : Nat) : (s.drawRng.2).byteAt a = s.byteAt a := rfl
@[simp] theorem State.setHalt_byteAt (s : State) (h : Option HaltRecord) (a : Nat) : (s.setHalt h).byteAt a = s.byteAt a := rfl
@[simp] theorem raiseFatal_byteAt (s : State) (k : FatalKind) (ia : Word) (a : Nat) : (raiseFatal k ia s).byteAt a = s.byteAt a := rfl
@[simp] theorem State.setMem_byteAt (s : State) (m : Memory) (a : Nat) :
    (s.setMem m).byteAt a = Memory.read s.params m a := rfl

@[simp] theorem State.setReg_memRead (s : State) (x : Reg) (b : Byte) (a : Nat) : (s.setReg x b).memRead a = s.memRead a := rfl
@[simp] theorem State.setI_memRead (s : State) (w : Word) (a : Nat) : (s.setI w).memRead a = s.memRead a := rfl
@[simp] theorem State.setPc_memRead (s : State) (w : Word) (a : Nat) : (s.setPc w).memRead a = s.memRead a := rfl
@[simp] theorem State.advancePc_memRead (s : State) (a : Nat) : (s.advancePc).memRead a = s.memRead a := rfl
@[simp] theorem State.setTimers_memRead (s : State) (d t : Byte) (a : Nat) : (s.setTimers d t).memRead a = s.memRead a := rfl
@[simp] theorem State.setKey_memRead (s : State) (k : Fin 16) (b : Bool) (a : Nat) : (s.setKey k b).memRead a = s.memRead a := rfl
@[simp] theorem State.setPix_memRead (s : State) (d : Display) (a : Nat) : (s.setPix d).memRead a = s.memRead a := rfl
@[simp] theorem State.setDirty_memRead (s : State) (b : Bool) (a : Nat) : (s.setDirty b).memRead a = s.memRead a := rfl
@[simp] theorem State.drawRng_memRead (s : State) (a : Nat) : (s.drawRng.2).memRead a = s.memRead a := rfl
@[simp] theorem State.setHalt_memRead (s : State) (h : Option HaltRecord) (a : Nat) : (s.setHalt h).memRead a = s.memRead a := rfl
@[simp] theorem raiseFatal_memRead (s : State) (k : FatalKind) (ia : Word) (a : Nat) : (raiseFatal k ia s).memRead a = s.memRead a := rfl

end Sys2Proof.Machine
end

