-- ==== Sys2Proof/Laws/Memory.lean ====
section
/-! SUPPORT. The laws of memory: a read after a write, every operation keeps the canonical form, EA and the reads through
it. -/

namespace Sys2Proof.Machine

/-! ### Read after write -/

@[simp] theorem Memory.read_nil (p : Params) (a : Nat) : Memory.read p [] a = resetByte p a := rfl

theorem Memory.read_cons (p : Params) (c : Host.Cell) (m : Memory) (a : Nat) :
    Memory.read p (c :: m) a = if a = c.1 then c.2 else Memory.read p m a := rfl

/-- An address below every entry reads as unlisted. -/
theorem Memory.read_of_lt {p : Params} {m : Memory} {a : Nat} (h : ∀ c ∈ m, a < c.1) :
    Memory.read p m a = resetByte p a := by
  induction m with
  | nil => rfl
  | cons c m ih =>
    rw [Memory.read_cons, if_neg (Nat.ne_of_lt (h c List.mem_cons_self)),
      ih fun d hd => h d (List.mem_cons_of_mem _ hd)]

theorem Memory.read_consCell {p : Params} {m : Memory} {a : Nat} {b : Byte} (h : ∀ c ∈ m, a < c.1) (a' : Nat) :
    Memory.read p (Memory.consCell p a b m) a' = if a' = a then b else Memory.read p m a' := by
  unfold Memory.consCell
  split
  · next hb =>
    split
    · next ha => rw [ha, Memory.read_of_lt h, hb]
    · rfl
  · rw [Memory.read_cons]

/-- What a read gives after a write of one byte. -/
theorem Memory.read_write {p : Params} {m : Memory} (hm : m.Pairwise (fun c d => c.1 < d.1)) (a a' : Nat) (b : Byte) :
    Memory.read p (Memory.write p m a b) a' = if a' = a then b else Memory.read p m a' := by
  induction m with
  | nil => exact Memory.read_consCell (by simp) a'
  | cons c m ih =>
    obtain ⟨hlt, hm⟩ := List.pairwise_cons.1 hm
    simp only [Memory.write]
    split
    · next h =>
      refine Memory.read_consCell (fun d hd => ?_) a'
      rcases List.mem_cons.1 hd with rfl | hd
      · exact h
      · exact Nat.lt_trans h (hlt d hd)
    · split
      · next h =>
        rw [Memory.read_consCell (fun d hd => h ▸ hlt d hd), Memory.read_cons]
        split
        · rfl
        · next hne => rw [if_neg (h ▸ hne)]
      · next h =>
        rw [Memory.read_cons, ih hm, Memory.read_cons]
        by_cases h1 : a' = c.1
        · rw [if_pos h1, if_pos h1, if_neg (by omega)]
        · rw [if_neg h1, if_neg h1]

/-! ### The canonical form -/

theorem Memory.mem_write {p : Params} {m : Memory} {a : Nat} {b : Byte} {c : Host.Cell}
    (h : c ∈ Memory.write p m a b) : c ∈ m ∨ c = (a, b) ∧ b ≠ resetByte p a := by
  have hc : ∀ {l : Memory}, c ∈ Memory.consCell p a b l → c ∈ l ∨ c = (a, b) ∧ b ≠ resetByte p a := by
    intro l hl
    unfold Memory.consCell at hl
    split at hl
    · exact .inl hl
    · next hb =>
      rcases List.mem_cons.1 hl with rfl | hl
      · exact .inr ⟨rfl, hb⟩
      · exact .inl hl
  induction m with
  | nil => exact hc h
  | cons d m ih =>
    simp only [Memory.write] at h
    split at h
    · exact hc h
    · split at h
      · exact (hc h).imp (List.mem_cons_of_mem _) id
      · rcases List.mem_cons.1 h with rfl | h
        · exact .inl List.mem_cons_self
        · exact (ih h).imp (List.mem_cons_of_mem _) id

theorem Memory.write_sorted {p : Params} {m : Memory} (hm : m.Pairwise (fun c d => c.1 < d.1)) (a : Nat) (b : Byte) :
    (Memory.write p m a b).Pairwise (fun c d => c.1 < d.1) := by
  have hc : ∀ {l : Memory}, l.Pairwise (fun c d => c.1 < d.1) → (∀ d ∈ l, a < d.1) →
      (Memory.consCell p a b l).Pairwise (fun c d => c.1 < d.1) := by
    intro l hl ha
    unfold Memory.consCell
    split
    · exact hl
    · exact List.pairwise_cons.2 ⟨ha, hl⟩
  induction m with
  | nil => exact hc .nil (by simp)
  | cons c m ih =>
    have hcm := hm
    obtain ⟨hlt, hm⟩ := List.pairwise_cons.1 hm
    simp only [Memory.write]
    split
    · next h =>
      refine hc hcm fun d hd => ?_
      rcases List.mem_cons.1 hd with rfl | hd
      · exact h
      · exact Nat.lt_trans h (hlt d hd)
    · split
      · next h => exact hc hm fun d hd => h ▸ hlt d hd
      · refine List.pairwise_cons.2 ⟨fun d hd => ?_, ih hm⟩
        rcases Memory.mem_write hd with hd | ⟨rfl, -⟩
        · exact hlt d hd
        · show c.1 < a; omega

/-- Writing a byte keeps the canonical form. -/
theorem Memory.write_wf {p : Params} {m : Memory} (hm : Memory.wf p m) {a : Nat} (ha : a < memorySize) (b : Byte) :
    Memory.wf p (Memory.write p m a b) := by
  refine ⟨Memory.write_sorted hm.1 a b, fun c hc => ?_⟩
  rcases Memory.mem_write hc with hc | ⟨rfl, hb⟩
  · exact hm.2 c hc
  · exact ⟨ha, hb⟩

/-- Writing a list of bytes keeps the canonical form. -/
theorem Memory.writeList_wf {p : Params} (bytes : List Byte) {m : Memory} (hm : Memory.wf p m) {a : Nat}
    (ha : a + bytes.length ≤ memorySize) : Memory.wf p (Memory.writeList p m a bytes) := by
  induction bytes generalizing m a with
  | nil => exact hm
  | cons b bytes ih =>
    rw [List.length_cons] at ha
    exact ih (Memory.write_wf hm (by omega) b) (by omega)

/-- What a read gives after a list of bytes was written from `a` up. -/
theorem Memory.read_writeList {p : Params} (bytes : List Byte) {m : Memory}
    (hm : m.Pairwise (fun c d => c.1 < d.1)) (a a' : Nat) :
    Memory.read p (Memory.writeList p m a bytes) a' =
      if h : a ≤ a' ∧ a' - a < bytes.length then bytes[a' - a] else Memory.read p m a' := by
  induction bytes generalizing m a with
  | nil => simp [Memory.writeList]
  | cons b bytes ih =>
    simp only [Memory.writeList]
    rw [ih (Memory.write_sorted hm a b), Memory.read_write hm]
    by_cases h0 : a' = a
    · subst h0; simp
    · by_cases h1 : a + 1 ≤ a' ∧ a' - (a + 1) < bytes.length
      · have h2 : a ≤ a' ∧ a' - a < (b :: bytes).length := by rw [List.length_cons]; omega
        rw [dif_pos h1, dif_pos h2]
        have h3 : a' - a = (a' - (a + 1)) + 1 := by omega
        simp only [h3, List.getElem_cons_succ]
      · have h2 : ¬ (a ≤ a' ∧ a' - a < (b :: bytes).length) := by rw [List.length_cons]; omega
        rw [dif_neg h1, dif_neg h2, if_neg h0]

/-- The memory of the reset state has the canonical form. -/
theorem State.reset_mem_wf (p : Params) : Memory.wf p State.reset.mem := by
  constructor <;> simp [State.reset]

/-- No byte from 0x200 up is part of the font: it resets to 0x00 (R37). -/
theorem resetByte_program (p : Params) {a : Nat} (h : loadBase ≤ a) : resetByte p a = 0x00#8 := by
  unfold resetByte
  rw [if_neg (by omega)]

/-- Byte r of glyph c resets to FONT[5c + r] (R27). -/
theorem resetByte_font (p : Params) (hp : p.wf) (c : Fin 16) (r : Fin 5) :
    resetByte p (p.fontBase.toNat + 5 * c.val + r.val) = p.font[c][r] := by
  have hc := c.isLt
  have hr := r.isLt
  have hlt : p.fontBase.toNat + 5 * c.val + r.val < loadBase := by simp only [loadBase]; omega
  have hsub : p.fontBase.toNat + 5 * c.val + r.val - p.fontBase.toNat = 5 * c.val + r.val := by omega
  unfold resetByte
  rw [if_pos hlt, if_pos (by omega), dif_pos (by omega)]
  have h1 : (p.fontBase.toNat + 5 * c.val + r.val - p.fontBase.toNat) / 5 = c.val := by omega
  have h2 : (p.fontBase.toNat + 5 * c.val + r.val - p.fontBase.toNat) % 5 = r.val := by omega
  simp only [h1, h2, Fin.getElem_fin]

/-! ### EA and the reads through it -/

/-- An address of the space is itself (R63). -/
theorem ea_of_lt (policy : AddressPolicy) {a : Nat} (h : a < memorySize) : ea policy a = some a := if_pos h

/-- Under wrap an address is taken mod 4096 (R63). -/
theorem ea_wrap (a : Nat) : ea .wrap a = some (a % memorySize) := by
  unfold ea
  split
  · next h => rw [Nat.mod_eq_of_lt h]
  · rfl

/-- Under fault an address at or above 0x1000 raises (R63). -/
theorem ea_fault {a : Nat} (h : memorySize ≤ a) : ea .fault a = none := if_neg (Nat.not_lt.2 h)

/-- Every address EA gives lies in the space, and is the address mod 4096. -/
theorem ea_some {policy : AddressPolicy} {a b : Nat} (h : ea policy a = some b) :
    b = a % memorySize ∧ b < memorySize ∧ (policy = .wrap ∨ a < memorySize) := by
  have hpos : 0 < memorySize := by decide
  by_cases ha : a < memorySize
  · rw [ea_of_lt policy ha] at h
    cases h
    exact ⟨(Nat.mod_eq_of_lt ha).symm, ha, .inr ha⟩
  · cases policy with
    | wrap => rw [ea_wrap] at h; cases h; exact ⟨rfl, Nat.mod_lt _ hpos, .inl rfl⟩
    | fault => rw [ea_fault (Nat.not_lt.1 ha)] at h; cases h

/-- EA raises exactly under fault, at or above 0x1000 (R63). -/
theorem ea_eq_none_iff (policy : AddressPolicy) (a : Nat) :
    ea policy a = none ↔ policy = .fault ∧ memorySize ≤ a := by
  constructor
  · intro h
    by_cases ha : a < memorySize
    · rw [ea_of_lt policy ha] at h; cases h
    · cases policy with
      | wrap => rw [ea_wrap] at h; cases h
      | fault => exact ⟨rfl, Nat.not_lt.1 ha⟩
  · rintro ⟨rfl, h⟩
    exact ea_fault h

/-- A read through EA where it does not raise. -/
theorem State.memRead_of_ok (s : State) {a : Nat} (h : s.params.addressPolicy = .wrap ∨ a < memorySize) :
    s.memRead a = some (s.byteAt (a % memorySize)) := by
  unfold State.memRead
  cases he : ea s.params.addressPolicy a with
  | some b => rw [(ea_some he).1, Option.map_some]
  | none =>
    obtain ⟨hp, ha⟩ := (ea_eq_none_iff _ _).1 he
    rcases h with h | h
    · rw [hp] at h; cases h
    · omega

/-- A read through EA raises exactly under fault, at or above 0x1000. -/
theorem State.memRead_eq_none_iff (s : State) (a : Nat) :
    s.memRead a = none ↔ s.params.addressPolicy = .fault ∧ memorySize ≤ a := by
  simp [State.memRead, ea_eq_none_iff]

/-- A read depends on the memory and the parameters alone. -/
theorem State.memRead_congr {s t : State} (hm : t.mem = s.mem) (hp : t.params = s.params) (a : Nat) :
    t.memRead a = s.memRead a := by
  have : t.byteAt = s.byteAt := by funext a; unfold State.byteAt; rw [hm, hp]
  unfold State.memRead
  rw [this, hp]

/-- A run of reads depends on the memory and the parameters alone. -/
theorem State.memReadList_congr {s t : State} (hm : t.mem = s.mem) (hp : t.params = s.params) (n a : Nat) :
    t.memReadList a n = s.memReadList a n := by
  induction n generalizing a with
  | zero => rfl
  | succ n ih =>
    simp only [State.memReadList]
    rw [State.memRead_congr hm hp a, ih (a + 1)]

/-- The bytes a run of reads gives, where none of them raises. -/
theorem State.memReadList_of_ok (s : State) (n a : Nat)
    (h : s.params.addressPolicy = .wrap ∨ ∀ r, r < n → a + r < memorySize) :
    s.memReadList a n = some ((List.range n).map fun r => s.byteAt ((a + r) % memorySize)) := by
  induction n generalizing a with
  | zero => rfl
  | succ n ih =>
    have h0 : s.params.addressPolicy = .wrap ∨ a < memorySize := h.imp id fun h => h 0 (by omega)
    have h1 : s.params.addressPolicy = .wrap ∨ ∀ r, r < n → a + 1 + r < memorySize :=
      h.imp id fun h r hr => by have := h (r + 1) (by omega); omega
    simp only [State.memReadList]
    rw [State.memRead_of_ok s h0, ih (a + 1) h1, List.range_succ_eq_map]
    simp [Function.comp_def, Nat.add_assoc, Nat.add_comm 1]

/-- A run of reads raises exactly when one of them does. -/
theorem State.memReadList_eq_none_iff (s : State) (n a : Nat) :
    s.memReadList a n = none ↔ s.params.addressPolicy = .fault ∧ ∃ r, r < n ∧ memorySize ≤ a + r := by
  constructor
  · intro h
    by_contra hn
    have hok : s.params.addressPolicy = .wrap ∨ ∀ r, r < n → a + r < memorySize := by
      cases hp : s.params.addressPolicy with
      | wrap => exact .inl rfl
      | fault =>
        refine .inr fun r hr => ?_
        by_contra hge
        exact hn ⟨hp, r, hr, Nat.not_lt.1 hge⟩
    rw [State.memReadList_of_ok s n a hok] at h
    cases h
  · rintro ⟨hp, r, hr, hge⟩
    induction n generalizing a r with
    | zero => omega
    | succ n ih =>
      simp only [State.memReadList]
      cases r with
      | zero => rw [(State.memRead_eq_none_iff s a).2 ⟨hp, by omega⟩]
      | succ r =>
        rw [ih (a + 1) r (by omega) (by omega)]
        cases s.memRead a <;> rfl

end Sys2Proof.Machine
end

