-- ==== Sys2Proof/Laws/Ops.lean ====
section
/-! SUPPORT. For each shared operation, once, everything it can do: the stack, the skip, the arithmetic and its flags,
write_fr, the display and the drawing of one sprite pixel. -/

namespace Sys2Proof.Machine

/-! ### The call stack -/

/-- A push with room (R132). -/
theorem State.push_of_lt (s : State) (w : Word) (h : s.sp.val < 16) :
    s.push w = some { s with stack := s.stack.set s.sp.val w h, sp := ⟨s.sp.val + 1, by omega⟩ } := by
  unfold State.push
  rw [dif_pos h]

/-- A push on a full stack (R132). -/
theorem State.push_of_full (s : State) (w : Word) (h : s.sp.val = 16) : s.push w = none := by
  unfold State.push
  rw [dif_neg (by omega)]

/-- A pop with a pending entry (R130). -/
theorem State.pop_of_pos (s : State) (h : 0 < s.sp.val) :
    s.pop = some (s.stack[s.sp.val - 1]'(by omega), { s with sp := ⟨s.sp.val - 1, by omega⟩ }) := by
  unfold State.pop
  rw [dif_pos h]

/-- A pop of an empty stack (R130). -/
theorem State.pop_of_zero (s : State) (h : s.sp.val = 0) : s.pop = none := by
  unfold State.pop
  rw [dif_neg (by omega)]

/-! ### Skips -/

/-- PC after the advance or a skip, mod 2^16 (R112, R150). -/
theorem State.advancePc_toNat (s : State) : s.advancePc.pc.toNat = (s.pc.toNat + 2) % 65536 := by
  simp [BitVec.toNat_add]

theorem skipIf_true (s : State) : skipIf true s = s.advancePc := rfl

theorem skipIf_false (s : State) : skipIf false s = s := rfl

/-- A skip writes PC and nothing else (R150). -/
theorem skipIf_eq (c : Bool) (s : State) : skipIf c s = s.setPc (if c then s.pc + 2#16 else s.pc) := by
  cases c <;> rfl

/-! ### Arithmetic and flags -/

theorem opAddr_toNat (nnn : Addr) : (opAddr nnn).toNat = nnn.toNat := by
  have := nnn.isLt
  simp [opAddr]
  omega

/-- The target of JP V0 does not wrap: it is at most 0x10FE (R133). -/
theorem opAddrPlusV0_toNat (s : State) (nnn : Addr) :
    (opAddrPlusV0 s nnn).toNat = nnn.toNat + (s.reg 0).toNat := by
  have := nnn.isLt
  have := (s.reg 0).isLt
  simp [opAddrPlusV0, opAddr, BitVec.toNat_add]
  omega

theorem sumByte_toNat (a b : Byte) : (sumByte a b).toNat = (a.toNat + b.toNat) % 256 := by simp [sumByte]

theorem diffByte_toNat (a b : Byte) : (diffByte a b).toNat = (a.toNat + 256 - b.toNat) % 256 := by
  have := a.isLt
  have := b.isLt
  simp only [diffByte, BitVec.toNat_ofInt]
  omega

theorem shrByte_toNat (a : Byte) : (shrByte a).toNat = a.toNat / 2 := by
  have := a.isLt
  simp [shrByte]
  omega

theorem shlByte_toNat (a : Byte) : (shlByte a).toNat = a.toNat * 2 % 256 := by simp [shlByte]

theorem carryFlag_iff (a b : Byte) : carryFlag a b = true ↔ 255 < a.toNat + b.toNat := by simp [carryFlag]

theorem noBorrowFlag_iff (a b : Byte) : noBorrowFlag a b = true ↔ b.toNat ≤ a.toNat := by simp [noBorrowFlag]

theorem flagByte_eq_one_iff (f : Bool) : flagByte f = 0x01#8 ↔ f = true := by cases f <;> simp [flagByte]

theorem flagByte_eq_zero_iff (f : Bool) : flagByte f = 0x00#8 ↔ f = false := by cases f <;> simp [flagByte]

/-- write_fr with X other than F (R171). -/
theorem writeFlagResult_other {x : Reg} (hx : x ≠ regF) (flag : Bool) (result : Byte) (s : State) :
    writeFlagResult x flag result s = (s.setReg regF (flagByte flag)).setReg x result := by
  simp [writeFlagResult, hx]

/-- write_fr with X = F (R171). -/
theorem writeFlagResult_regF (flag : Bool) (result : Byte) (s : State) :
    writeFlagResult regF flag result s =
      s.setReg regF (match s.params.vfDest with | .result => result | .flag => flagByte flag) := by
  unfold writeFlagResult
  rw [if_pos rfl]
  cases s.params.vfDest <;> rfl

/-- write_fr only writes registers: VX and VF. -/
theorem writeFlagResult_shape (x : Reg) (flag : Bool) (result : Byte) (s : State) :
    ∃ v, writeFlagResult x flag result s = { s with v := v } ∧
      ∀ y : Reg, y ≠ x → y ≠ regF → (writeFlagResult x flag result s).reg y = s.reg y := by
  by_cases hx : x = regF
  · subst hx
    rw [writeFlagResult_regF]
    exact ⟨_, rfl, fun y hy _ => State.setReg_reg_other s _ hy⟩
  · rw [writeFlagResult_other hx]
    refine ⟨_, rfl, fun y hy hf => ?_⟩
    rw [State.setReg_reg_other _ _ hy, State.setReg_reg_other _ _ hf]

/-! ### The display -/

/-- A pixel after one pixel was written. -/
theorem Display.put_get (d : Display) (x x' : Fin 64) (y y' : Fin 32) (b : Bool) :
    (d.put x y b).get x' y' = if x' = x ∧ y' = y then b else d.get x' y' := by
  unfold Display.put Display.get
  by_cases hy : y' = y
  · subst hy
    by_cases hx : x' = x
    · subst hx; simp
    · simp [hx, Ne.symm (Fin.val_ne_of_ne hx)]
  · simp [hy, Ne.symm (Fin.val_ne_of_ne hy)]

@[simp] theorem Display.blank_get (x : Fin 64) (y : Fin 32) : Display.blank.get x y = false := by
  simp [Display.blank, Display.get]

/-- Two displays with the same pixels are the same display. -/
theorem Display.ext_get {d e : Display} (h : ∀ x y, d.get x y = e.get x y) : d = e := by
  apply Vector.ext
  intro j hj
  apply Vector.ext
  intro k hk
  exact h ⟨k, hk⟩ ⟨j, hj⟩

/-- One sprite pixel (R222): the pixel it lands on is XORed with the bit, every other one is left alone. -/
theorem drawPixel_get (bit : Bool) (x x' : Fin 64) (y y' : Fin 32) (a : Drawing) :
    (drawPixel bit x y a).1.get x' y' =
      if x' = x ∧ y' = y then xor (a.1.get x' y') bit else a.1.get x' y' := by
  unfold drawPixel
  cases bit
  · simp
  · rw [if_pos rfl, Display.put_get]
    split
    · next h => obtain ⟨rfl, rfl⟩ := h; simp
    · rfl

/-- One sprite pixel notes a collision when its bit is 1 and the pixel was on (R222). -/
theorem drawPixel_collision (bit : Bool) (x : Fin 64) (y : Fin 32) (a : Drawing) :
    (drawPixel bit x y a).2 = (a.2 || (bit && a.1.get x y)) := by
  unfold drawPixel
  cases bit <;> simp

@[simp] theorem drawRows_nil (x0 y0 : Nat) (a : Drawing) : drawRows x0 y0 [] a = a := rfl

theorem drawRows_cons (x0 y0 : Nat) (row : Byte) (rest : List Byte) (a : Drawing) :
    drawRows x0 y0 (row :: rest) a = drawRows x0 (y0 + 1) rest (drawRow x0 (wrapRow y0) row a) := rfl

/-! ### Timers -/

/-- A countdown clamps at 0 (R260). -/
theorem countDown_toNat (t : Byte) : (countDown t).toNat = t.toNat - 1 := by
  have := t.isLt
  unfold countDown
  split
  · simp; omega
  · omega

@[simp] theorem countDown_zero : countDown 0x00#8 = 0x00#8 := rfl

end Sys2Proof.Machine
end

