-- ==== Sys2Proof/Laws/Drawing.lean ====
section
/-! SUPPORT. What drawing one sprite row and a whole sprite does, said once (R221, R222): no two sprite pixels land on the
same display pixel, so each pixel is XORed at most once, and the collision is about the display before the drawing. -/

namespace Sys2Proof.Machine

/-- The bits `bs` of a sprite row, drawn in order. -/
def drawBits (x0 : Nat) (y : Fin 32) (row : Byte) (bs : List Nat) (a : Drawing) : Drawing :=
  bs.foldl (fun acc b => drawPixel (row.getLsbD (7 - b)) (wrapColumn (x0 + b)) y acc) a

theorem drawRow_eq (x0 : Nat) (y : Fin 32) (row : Byte) (a : Drawing) :
    drawRow x0 y row a = drawBits x0 y row (List.range 8) a := rfl

/-- Some bit of the row among `bs` is 1 and lands on column `x`. -/
def bitsLight (x0 : Nat) (row : Byte) (bs : List Nat) (x : Fin 64) : Bool :=
  bs.any fun b => row.getLsbD (7 - b) && decide (x = wrapColumn (x0 + b))

/-- Bits of a row land on different columns (R221). -/
theorem column_inj {x0 b c : Nat} (hb : b < 8) (hc : c < 8) (h : wrapColumn (x0 + b) = wrapColumn (x0 + c)) :
    b = c := by
  have := congrArg Fin.val h
  simp only [wrapColumn] at this
  omega

/-- Rows of a sprite land on different display rows (R221). -/
theorem row_inj {y0 r q : Nat} (hr : r < 32) (hq : q < 32) (h : wrapRow (y0 + r) = wrapRow (y0 + q)) :
    r = q := by
  have := congrArg Fin.val h
  simp only [wrapRow] at this
  omega

theorem bitsLight_eq_false {x0 : Nat} {row : Byte} {bs : List Nat} {b : Nat} (hb : b < 8) (hbs : ∀ c ∈ bs, c < 8)
    (hn : b ∉ bs) : bitsLight x0 row bs (wrapColumn (x0 + b)) = false := by
  simp only [bitsLight, List.any_eq_false, Bool.and_eq_true, decide_eq_true_eq, not_and]
  intro c hc _ h
  exact hn (column_inj hb (hbs c hc) h ▸ hc)

/-- The display after some bits of a row: on that row each pixel is XORed with whether a bit lights it. -/
theorem drawBits_get (x0 : Nat) (y y' : Fin 32) (row : Byte) (x' : Fin 64) (bs : List Nat) (hnd : bs.Nodup)
    (hbs : ∀ b ∈ bs, b < 8) (a : Drawing) :
    (drawBits x0 y row bs a).1.get x' y' =
      xor (a.1.get x' y') (decide (y' = y) && bitsLight x0 row bs x') := by
  induction bs generalizing a with
  | nil => simp [drawBits, bitsLight]
  | cons b bs ih =>
    obtain ⟨hn, hnd⟩ := List.nodup_cons.1 hnd
    have hb := hbs b List.mem_cons_self
    have hbs' : ∀ c ∈ bs, c < 8 := fun c hc => hbs c (List.mem_cons_of_mem _ hc)
    have ih := ih hnd hbs' (drawPixel (row.getLsbD (7 - b)) (wrapColumn (x0 + b)) y a)
    simp only [drawBits, List.foldl_cons] at ih ⊢
    rw [ih, drawPixel_get]
    by_cases hy : y' = y
    · by_cases hx : x' = wrapColumn (x0 + b)
      · subst hx
        have hf := bitsLight_eq_false (x0 := x0) (row := row) hb hbs' hn
        simp only [bitsLight] at hf
        simp [hy, bitsLight, hf]
      · simp [hy, hx, bitsLight]
    · simp [hy]

/-- The collision after some bits of a row: some lit pixel was on before the row. -/
theorem drawBits_collision (x0 : Nat) (y : Fin 32) (row : Byte) (bs : List Nat) (hnd : bs.Nodup)
    (hbs : ∀ b ∈ bs, b < 8) (a : Drawing) :
    (drawBits x0 y row bs a).2 =
      (a.2 || bs.any fun b => row.getLsbD (7 - b) && a.1.get (wrapColumn (x0 + b)) y) := by
  induction bs generalizing a with
  | nil => simp [drawBits]
  | cons b bs ih =>
    obtain ⟨hn, hnd⟩ := List.nodup_cons.1 hnd
    have hb := hbs b List.mem_cons_self
    have hbs' : ∀ c ∈ bs, c < 8 := fun c hc => hbs c (List.mem_cons_of_mem _ hc)
    have ih := ih hnd hbs' (drawPixel (row.getLsbD (7 - b)) (wrapColumn (x0 + b)) y a)
    simp only [drawBits, List.foldl_cons] at ih ⊢
    rw [ih, drawPixel_collision, List.any_cons, Bool.or_assoc]
    congr 2
    rw [Bool.eq_iff_iff, List.any_eq_true, List.any_eq_true]
    refine exists_congr fun c => and_congr_right fun hc => ?_
    rw [drawPixel_get, if_neg]
    exact fun h => hn (column_inj (hbs' c hc) hb h.1 ▸ hc)

/-- One sprite row lights column `x`. -/
def rowLights (x0 : Nat) (row : Byte) (x : Fin 64) : Bool := bitsLight x0 row (List.range 8) x

theorem rowLights_iff (x0 : Nat) (row : Byte) (x : Fin 64) :
    rowLights x0 row x = true ↔ ∃ b, b < 8 ∧ row.getLsbD (7 - b) = true ∧ x = wrapColumn (x0 + b) := by
  simp only [rowLights, bitsLight, List.any_eq_true, List.mem_range, Bool.and_eq_true, decide_eq_true_eq]

/-- The display after one row. -/
theorem drawRow_get (x0 : Nat) (y y' : Fin 32) (row : Byte) (x' : Fin 64) (a : Drawing) :
    (drawRow x0 y row a).1.get x' y' = xor (a.1.get x' y') (decide (y' = y) && rowLights x0 row x') :=
  drawBits_get x0 y y' row x' (List.range 8) List.nodup_range (fun _ h => List.mem_range.1 h) a

/-- The collision after one row: some pixel of the row was on before and is lit. -/
theorem drawRow_collision_iff (x0 : Nat) (y : Fin 32) (row : Byte) (a : Drawing) :
    (drawRow x0 y row a).2 = true ↔ a.2 = true ∨ ∃ x, rowLights x0 row x = true ∧ a.1.get x y = true := by
  rw [drawRow_eq, drawBits_collision x0 y row (List.range 8) List.nodup_range (fun _ h => List.mem_range.1 h) a,
    Bool.or_eq_true, List.any_eq_true]
  refine or_congr_right ⟨?_, ?_⟩
  · rintro ⟨b, hb, h⟩
    rw [Bool.and_eq_true] at h
    exact ⟨_, (rowLights_iff _ _ _).2 ⟨b, List.mem_range.1 hb, h.1, rfl⟩, h.2⟩
  · rintro ⟨x, hx, hg⟩
    obtain ⟨b, hb, hbit, rfl⟩ := (rowLights_iff _ _ _).1 hx
    exact ⟨b, List.mem_range.2 hb, by rw [hbit, hg]; rfl⟩

/-- The sprite's rows light pixel (x, y), the first row standing at display row y0 mod 32. -/
def rowsLight (x0 y0 : Nat) (rows : List Byte) (x : Fin 64) (y : Fin 32) : Prop :=
  ∃ r row, rows[r]? = some row ∧ y = wrapRow (y0 + r) ∧ rowLights x0 row x = true

theorem rowsLight_cons (x0 y0 : Nat) (row : Byte) (rest : List Byte) (x : Fin 64) (y : Fin 32) :
    rowsLight x0 y0 (row :: rest) x y ↔
      (y = wrapRow y0 ∧ rowLights x0 row x = true) ∨ rowsLight x0 (y0 + 1) rest x y := by
  constructor
  · rintro ⟨r, q, hr, hy, hl⟩
    cases r with
    | zero => simp only [List.getElem?_cons_zero, Option.some.injEq] at hr; subst hr; exact .inl ⟨hy, hl⟩
    | succ r =>
      rw [List.getElem?_cons_succ] at hr
      exact .inr ⟨r, q, hr, by rw [hy]; congr 1; omega, hl⟩
  · rintro (⟨hy, hl⟩ | ⟨r, q, hr, hy, hl⟩)
    · exact ⟨0, row, rfl, hy, hl⟩
    · exact ⟨r + 1, q, by rw [List.getElem?_cons_succ]; exact hr, by rw [hy]; congr 1; omega, hl⟩

/-- No later row of the sprite lies on the first one's display row (R221). -/
theorem rowsLight_ne_first {x0 y0 : Nat} {rest : List Byte} {x : Fin 64} {y : Fin 32} (hlen : rest.length < 32)
    (h : rowsLight x0 (y0 + 1) rest x y) : y ≠ wrapRow y0 := by
  obtain ⟨r, q, hr, hy, -⟩ := h
  intro h
  have hr' := (List.getElem?_eq_some_iff.1 hr).1
  have he : wrapRow (y0 + (r + 1)) = wrapRow (y0 + 0) := by
    show _ = wrapRow y0
    rw [← h, hy]; congr 1; omega
  have := row_inj (y0 := y0) (r := r + 1) (q := 0) (by omega) (by omega) he
  omega

/-- The display after a whole sprite: exactly the lit pixels are inverted. -/
theorem drawRows_get (x0 : Nat) (rows : List Byte) (y0 : Nat) (hlen : rows.length ≤ 32) (x : Fin 64) (y : Fin 32)
    (a : Drawing) :
    (rowsLight x0 y0 rows x y → (drawRows x0 y0 rows a).1.get x y = !a.1.get x y) ∧
    (¬ rowsLight x0 y0 rows x y → (drawRows x0 y0 rows a).1.get x y = a.1.get x y) := by
  induction rows generalizing y0 a with
  | nil => exact ⟨fun ⟨_, _, h, _⟩ => by simp at h, fun _ => rfl⟩
  | cons row rest ih =>
    rw [List.length_cons] at hlen
    obtain ⟨ih1, ih2⟩ := ih (y0 + 1) (by omega) (drawRow x0 (wrapRow y0) row a)
    rw [rowsLight_cons, drawRows_cons]
    by_cases hr : rowsLight x0 (y0 + 1) rest x y
    · have hne := rowsLight_ne_first (by omega) hr
      rw [ih1 hr, drawRow_get]
      simp [hr, hne]
    · rw [ih2 hr, drawRow_get]
      by_cases hy : y = wrapRow y0
      · subst hy
        cases hl : rowLights x0 row x <;> simp [hr]
      · simp [hr, hy]

/-- The collision after a whole sprite: some lit pixel was on before. -/
theorem drawRows_collision_iff (x0 : Nat) (rows : List Byte) (y0 : Nat) (hlen : rows.length ≤ 32) (a : Drawing) :
    (drawRows x0 y0 rows a).2 = true ↔
      a.2 = true ∨ ∃ x y, rowsLight x0 y0 rows x y ∧ a.1.get x y = true := by
  induction rows generalizing y0 a with
  | nil => simp [rowsLight]
  | cons row rest ih =>
    rw [List.length_cons] at hlen
    have hrest : ∀ x y, rowsLight x0 (y0 + 1) rest x y →
        (drawRow x0 (wrapRow y0) row a).1.get x y = a.1.get x y := by
      intro x y h
      rw [drawRow_get]
      simp [rowsLight_ne_first (by omega) h]
    rw [drawRows_cons, ih (y0 + 1) (by omega), drawRow_collision_iff]
    constructor
    · rintro ((h | ⟨x, hl, hg⟩) | ⟨x, y, hl, hg⟩)
      · exact .inl h
      · exact .inr ⟨x, _, (rowsLight_cons ..).2 (.inl ⟨rfl, hl⟩), hg⟩
      · exact .inr ⟨x, y, (rowsLight_cons ..).2 (.inr hl), by rw [← hrest x y hl]; exact hg⟩
    · rintro (h | ⟨x, y, hc, hg⟩)
      · exact .inl (.inl h)
      · rcases (rowsLight_cons ..).1 hc with ⟨rfl, hl⟩ | hl
        · exact .inl (.inr ⟨x, hl, hg⟩)
        · exact .inr ⟨x, y, hl, by rw [hrest x y hl]; exact hg⟩

end Sys2Proof.Machine
end

