-- ==== Sys2Proof/Laws/Encoding.lean ====
section
/-! SUPPORT. The decoder's fields and the encoder's words as numbers (R82, R84), and what AND with a row's mask keeps. -/

namespace Sys2Proof

theorem fieldClass_eq (w : Word) : fieldClass w = w.toNat / 4096 := by
  have := w.isLt
  simp [fieldClass, Nat.shiftRight_eq_div_pow]
  omega

theorem fieldX_val (w : Word) : (fieldX w).val = w.toNat / 256 % 16 := by
  simp [fieldX, Nat.shiftRight_eq_div_pow]

theorem fieldY_val (w : Word) : (fieldY w).val = w.toNat / 16 % 16 := by
  simp [fieldY, Nat.shiftRight_eq_div_pow]

theorem fieldN_eq (w : Word) : fieldN w = w.toNat % 16 := by simp [fieldN]

theorem fieldNN_toNat (w : Word) : (fieldNN w).toNat = w.toNat % 256 := by simp [fieldNN]

theorem fieldNNN_toNat (w : Word) : (fieldNNN w).toNat = w.toNat % 4096 := by simp [fieldNNN]

/-- The first byte is the word's high half (R62). -/
theorem wordOfBytes_toNat (hi lo : Byte) : (wordOfBytes hi lo).toNat = hi.toNat * 256 + lo.toNat := by
  have := lo.isLt
  simp only [wordOfBytes, BitVec.toNat_append]
  rw [← Nat.shiftLeft_add_eq_or_of_lt (by omega), Nat.shiftLeft_eq]

/-- The bytes of a word are the word again (R62). -/
theorem wordOfBytes_bytes (w : Word) : wordOfBytes (w.extractLsb' 8 8) (w.extractLsb' 0 8) = w := by
  have := w.isLt
  apply BitVec.eq_of_toNat_eq
  rw [wordOfBytes_toNat]
  simp [Nat.shiftRight_eq_div_pow]
  omega

theorem wordNNN_toNat (c : BitVec 4) (nnn : Addr) : (wordNNN c nnn).toNat = c.toNat * 4096 + nnn.toNat := by
  have := nnn.isLt
  simp only [wordNNN, BitVec.toNat_append]
  rw [← Nat.shiftLeft_add_eq_or_of_lt (by omega), Nat.shiftLeft_eq]

theorem wordXNN_toNat (c : BitVec 4) (x : Reg) (nn : Byte) :
    (wordXNN c x nn).toNat = c.toNat * 4096 + x.val * 256 + nn.toNat := by
  have := x.isLt
  have := nn.isLt
  simp only [wordXNN, regField, BitVec.toNat_append, BitVec.toNat_ofFin]
  rw [← Nat.shiftLeft_add_eq_or_of_lt (by omega), ← Nat.shiftLeft_add_eq_or_of_lt (by omega)]
  simp only [Nat.shiftLeft_eq]
  omega

theorem wordXYN_toNat (c : BitVec 4) (x y : Reg) (n : BitVec 4) :
    (wordXYN c x y n).toNat = c.toNat * 4096 + x.val * 256 + y.val * 16 + n.toNat := by
  have := x.isLt
  have := y.isLt
  have := n.isLt
  simp only [wordXYN, regField, BitVec.toNat_append, BitVec.toNat_ofFin]
  rw [← Nat.shiftLeft_add_eq_or_of_lt (by omega), ← Nat.shiftLeft_add_eq_or_of_lt (by omega),
    ← Nat.shiftLeft_add_eq_or_of_lt (by omega)]
  simp only [Nat.shiftLeft_eq]
  omega

/-- The fields of a word of format `NNN`. -/
theorem wordNNN_fields (c : BitVec 4) (nnn : Addr) :
    fieldClass (wordNNN c nnn) = c.toNat ∧ fieldNNN (wordNNN c nnn) = nnn := by
  have := nnn.isLt
  refine ⟨?_, BitVec.eq_of_toNat_eq ?_⟩
  · rw [fieldClass_eq, wordNNN_toNat]; omega
  · rw [fieldNNN_toNat, wordNNN_toNat]; omega

/-- The fields of a word of format `XNN`. -/
theorem wordXNN_fields (c : BitVec 4) (x : Reg) (nn : Byte) :
    fieldClass (wordXNN c x nn) = c.toNat ∧ fieldX (wordXNN c x nn) = x ∧ fieldNN (wordXNN c x nn) = nn := by
  have := x.isLt
  have := nn.isLt
  refine ⟨?_, Fin.ext ?_, BitVec.eq_of_toNat_eq ?_⟩
  · rw [fieldClass_eq, wordXNN_toNat]; omega
  · rw [fieldX_val, wordXNN_toNat]; omega
  · rw [fieldNN_toNat, wordXNN_toNat]; omega

/-- The fields of a word of format `XYS` or `XYN`. -/
theorem wordXYN_fields (c n : BitVec 4) (x y : Reg) :
    fieldClass (wordXYN c x y n) = c.toNat ∧ fieldX (wordXYN c x y n) = x ∧ fieldY (wordXYN c x y n) = y ∧
      fieldN (wordXYN c x y n) = n.toNat := by
  have := x.isLt
  have := y.isLt
  have := n.isLt
  refine ⟨?_, Fin.ext ?_, Fin.ext ?_, ?_⟩
  · rw [fieldClass_eq, wordXYN_toNat]; omega
  · rw [fieldX_val, wordXYN_toNat]; omega
  · rw [fieldY_val, wordXYN_toNat]; omega
  · rw [fieldN_eq, wordXYN_toNat]; omega

/-- A 16-bit index is one of sixteen. -/
theorem index_cases {i : Nat} (h : i < 16) :
    i = 0 ∨ i = 1 ∨ i = 2 ∨ i = 3 ∨ i = 4 ∨ i = 5 ∨ i = 6 ∨ i = 7 ∨ i = 8 ∨ i = 9 ∨ i = 10 ∨ i = 11 ∨ i = 12 ∨
      i = 13 ∨ i = 14 ∨ i = 15 := by omega

/-- The mask 0xF000 keeps the class. -/
theorem mask_class (w : Word) : w &&& 0xF000#16 = BitVec.ofNat 16 (w.toNat / 4096 * 4096) := by
  have e : w.toNat / 4096 * 4096 = (w.toNat >>> 12) <<< 12 := by
    rw [Nat.shiftRight_eq_div_pow, Nat.shiftLeft_eq]
  rw [e]
  apply BitVec.eq_of_getLsbD_eq
  intro i hi
  simp only [BitVec.getLsbD_and, BitVec.getLsbD_ofNat, Nat.testBit_shiftLeft, Nat.testBit_shiftRight]
  rcases index_cases hi with h|h|h|h|h|h|h|h|h|h|h|h|h|h|h|h <;> subst h <;> simp [BitVec.getLsbD] <;>
    intro _ <;> decide

/-- The mask 0xF00F keeps the class and the low nibble. -/
theorem mask_classLow (w : Word) : w &&& 0xF00F#16 = BitVec.ofNat 16 (w.toNat / 4096 * 4096 + w.toNat % 16) := by
  have e : w.toNat / 4096 * 4096 + w.toNat % 16 = 2 ^ 12 * (w.toNat / 4096) + w.toNat % 16 := by omega
  rw [e]
  apply BitVec.eq_of_getLsbD_eq
  intro i hi
  have hlt : w.toNat % 16 < 2 ^ 12 := by omega
  have hd : w.toNat / 4096 = w.toNat >>> 12 := by rw [Nat.shiftRight_eq_div_pow]
  have hm : w.toNat % 16 = w.toNat % 2 ^ 4 := rfl
  simp only [BitVec.getLsbD_and, BitVec.getLsbD_ofNat]
  rw [Nat.testBit_two_pow_mul_add _ hlt, hd, hm]
  simp only [Nat.testBit_shiftRight, Nat.testBit_mod_two_pow]
  rcases index_cases hi with h|h|h|h|h|h|h|h|h|h|h|h|h|h|h|h <;> subst h <;> simp [BitVec.getLsbD] <;>
    intro _ <;> decide

end Sys2Proof
end

