-- ==== Sys2Proof/Laws/Frames.lean ====
section
/-! SUPPORT. What each shared operation leaves unchanged, in the terms claims use (`OnlyWrites`), and how frames compose. -/

namespace Sys2Proof

open Sys2Proof.Machine

theorem OnlyWrites.refl (ps : List Part) (s : State) : OnlyWrites ps s s := by
  constructor <;> intros <;> rfl

/-- A frame may name more parts. -/
theorem OnlyWrites.mono {ps qs : List Part} {s t : State} (h : OnlyWrites ps s t) (hpq : ∀ p ∈ ps, p ∈ qs) :
    OnlyWrites qs s t where
  reg x hx := h.reg x fun hp => hx (hpq _ hp)
  i hx := h.i fun hp => hx (hpq _ hp)
  pc hx := h.pc fun hp => hx (hpq _ hp)
  sp hx := h.sp fun hp => hx (hpq _ hp)
  stack hx := h.stack fun hp => hx (hpq _ hp)
  pix hx := h.pix fun hp => hx (hpq _ hp)
  dirty hx := h.dirty fun hp => hx (hpq _ hp)
  halt hx := h.halt fun hp => hx (hpq _ hp)
  rng hx := h.rng fun hp => hx (hpq _ hp)
  dt := h.dt
  st := h.st
  key := h.key
  params := h.params
  mem := h.mem
  byteAt := h.byteAt

/-- Two frames in a row. -/
theorem OnlyWrites.trans {ps : List Part} {s t u : State} (h : OnlyWrites ps s t) (k : OnlyWrites ps t u) :
    OnlyWrites ps s u where
  reg x hx := (k.reg x hx).trans (h.reg x hx)
  i hx := (k.i hx).trans (h.i hx)
  pc hx := (k.pc hx).trans (h.pc hx)
  sp hx := (k.sp hx).trans (h.sp hx)
  stack hx := (k.stack hx).trans (h.stack hx)
  pix hx := (k.pix hx).trans (h.pix hx)
  dirty hx := (k.dirty hx).trans (h.dirty hx)
  halt hx := (k.halt hx).trans (h.halt hx)
  rng hx := (k.rng hx).trans (h.rng hx)
  dt := k.dt.trans h.dt
  st := k.st.trans h.st
  key := k.key.trans h.key
  params := k.params.trans h.params
  mem := k.mem.trans h.mem
  byteAt a := (k.byteAt a).trans (h.byteAt a)

theorem setReg_onlyWrites (s : State) (x : Reg) (b : Byte) : OnlyWrites [.reg x] s (s.setReg x b) := by
  constructor <;> simp
  exact fun y hy => State.setReg_reg_other s b hy

theorem setPc_onlyWrites (s : State) (w : Word) : OnlyWrites [.pc] s (s.setPc w) := by
  constructor <;> simp

theorem advancePc_onlyWrites (s : State) : OnlyWrites [.pc] s s.advancePc := setPc_onlyWrites s _

theorem skipIf_onlyWrites (c : Bool) (s : State) : OnlyWrites [.pc] s (skipIf c s) := by
  rw [skipIf_eq]
  exact setPc_onlyWrites s _

theorem setI_onlyWrites (s : State) (w : Word) : OnlyWrites [.i] s (s.setI w) := by
  constructor <;> simp

theorem drawRng_onlyWrites (s : State) : OnlyWrites [.rng] s s.drawRng.2 := by
  constructor <;> simp

theorem setPix_onlyWrites (s : State) (d : Display) : OnlyWrites [.pix] s (s.setPix d) := by
  constructor <;> simp

theorem setDirty_onlyWrites (s : State) (b : Bool) : OnlyWrites [.dirty] s (s.setDirty b) := by
  constructor <;> simp

theorem setHalt_onlyWrites (s : State) (h : Option HaltRecord) : OnlyWrites [.halt] s (s.setHalt h) := by
  constructor <;> simp

theorem raiseFatal_onlyWrites (k : FatalKind) (ia : Word) (s : State) : OnlyWrites [.halt] s (raiseFatal k ia s) :=
  setHalt_onlyWrites s _

theorem writeFlagResult_onlyWrites (x : Reg) (flag : Bool) (result : Byte) (s : State) :
    OnlyWrites [.reg x, .reg regF] s (writeFlagResult x flag result s) := by
  by_cases hx : x = regF
  · subst hx
    rw [writeFlagResult_regF]
    exact (setReg_onlyWrites s _ _).mono (by simp)
  · rw [writeFlagResult_other hx]
    exact ((setReg_onlyWrites s _ _).mono (by simp)).trans ((setReg_onlyWrites _ _ _).mono (by simp))

theorem push_onlyWrites {s t : State} {w : Word} (h : s.push w = some t) : OnlyWrites [.sp, .stack] s t := by
  unfold State.push at h
  split at h
  · cases h
    constructor <;> intros <;> first | rfl | simp_all
  · cases h

theorem pop_onlyWrites {s t : State} {w : Word} (h : s.pop = some (w, t)) : OnlyWrites [.sp] s t := by
  unfold State.pop at h
  split at h
  · cases h
    constructor <;> intros <;> first | rfl | simp_all
  · cases h

/-- write_fr leaves the flag and the result where R171 says, for a flag that decides `c`. -/
theorem writeFlagResult_flagAndResult {x : Reg} {flag : Bool} {result : Byte} {s : State} {c : Prop} {n : Nat}
    (hc : flag = true ↔ c) (hn : result.toNat = n) : FlagAndResult s (writeFlagResult x flag result s) x c n := by
  have hflag : ∀ t : State, t.reg regF = flagByte flag → HoldsFlag c t := by
    intro t ht
    refine ⟨fun h => ?_, fun h => ?_⟩
    · rw [ht, flagByte_eq_one_iff]; exact hc.2 h
    · rw [ht, flagByte_eq_zero_iff]; exact Bool.eq_false_iff.2 fun hf => h (hc.1 hf)
  refine ⟨fun hx => ?_, fun hx hv => ?_, fun hx hv => ?_⟩
  · rw [writeFlagResult_other hx]
    refine ⟨hflag _ ?_, by rw [State.setReg_reg_same, hn]⟩
    rw [State.setReg_reg_other _ _ (Ne.symm hx), State.setReg_reg_same]
  · subst hx
    rw [writeFlagResult_regF, hv, State.setReg_reg_same, hn]
  · subst hx
    apply hflag
    rw [writeFlagResult_regF, hv, State.setReg_reg_same]

end Sys2Proof
end

