-- ==== Sys2Proof/Laws/PerInstr.lean ====
section
/-! SUPPORT. Per instruction: the encoded word selects the instruction's own row of the opcode table (R90). -/

namespace Sys2Proof.Laws.OpcodeTable

/-- The word of a well-formed instruction selects its row of R90: `w AND mask = match`. -/
def Statement (i : Instr) : Prop := WellFormed i → (opcodeRow i).selects (encode i) = true

/-- A word of a row whose mask is 0xF000 selects it when its class is the row's. -/
theorem selects_class {w : Word} {m : String} {p : Word} (h : w.toNat / 4096 * 4096 = p.toNat) :
    (OpcodeRow.mk m p 0xF000#16).selects w = true := by
  have e : w &&& 0xF000#16 = p := by
    rw [mask_class]
    apply BitVec.eq_of_toNat_eq
    have := p.isLt
    rw [BitVec.toNat_ofNat, h]
    omega
  simp [OpcodeRow.selects, e]

/-- A word of a row whose mask is 0xF00F selects it when its class and low nibble are the row's. -/
theorem selects_classLow {w : Word} {m : String} {p : Word}
    (h : w.toNat / 4096 * 4096 + w.toNat % 16 = p.toNat) : (OpcodeRow.mk m p 0xF00F#16).selects w = true := by
  have e : w &&& 0xF00F#16 = p := by
    rw [mask_classLow]
    apply BitVec.eq_of_toNat_eq
    have := p.isLt
    rw [BitVec.toNat_ofNat, h]
    omega
  simp [OpcodeRow.selects, e]

theorem nnn_row {c : BitVec 4} {m : String} {p : Word} (nnn : Addr) (h : p.toNat = c.toNat * 4096) :
    (OpcodeRow.mk m p 0xF000#16).selects (wordNNN c nnn) = true := by
  apply selects_class
  have := nnn.isLt
  rw [wordNNN_toNat, h]
  omega

theorem xnn_row {c : BitVec 4} {m : String} {p : Word} (x : Reg) (nn : Byte) (h : p.toNat = c.toNat * 4096) :
    (OpcodeRow.mk m p 0xF000#16).selects (wordXNN c x nn) = true := by
  apply selects_class
  have := x.isLt
  have := nn.isLt
  rw [wordXNN_toNat, h]
  omega

theorem xys_row {c n : BitVec 4} {m : String} {p : Word} (x y : Reg) (h : p.toNat = c.toNat * 4096 + n.toNat) :
    (OpcodeRow.mk m p 0xF00F#16).selects (wordXYN c x y n) = true := by
  apply selects_classLow
  have := x.isLt
  have := y.isLt
  have := n.isLt
  rw [wordXYN_toNat, h]
  omega

theorem xyn_row {c : BitVec 4} {m : String} {p : Word} (x y : Reg) (n : BitVec 4) (h : p.toNat = c.toNat * 4096) :
    (OpcodeRow.mk m p 0xF000#16).selects (wordXYN c x y n) = true := by
  apply selects_class
  have := x.isLt
  have := y.isLt
  have := n.isLt
  rw [wordXYN_toNat, h]
  omega

theorem cls : Statement (.cls) := fun _ => by decide
theorem ret : Statement (.ret) := fun _ => by decide
theorem jpAddr (nnn : Addr) : Statement (.jpAddr nnn) := fun _ => nnn_row nnn rfl
theorem callAddr (nnn : Addr) : Statement (.callAddr nnn) := fun _ => nnn_row nnn rfl
theorem seVxNN (x : Reg) (nn : Byte) : Statement (.seVxNN x nn) := fun _ => xnn_row x nn rfl
theorem sneVxNN (x : Reg) (nn : Byte) : Statement (.sneVxNN x nn) := fun _ => xnn_row x nn rfl
theorem seVxVy (x : Reg) (y : Reg) : Statement (.seVxVy x y) := fun _ => xys_row x y rfl
theorem ldVxNN (x : Reg) (nn : Byte) : Statement (.ldVxNN x nn) := fun _ => xnn_row x nn rfl
theorem addVxNN (x : Reg) (nn : Byte) : Statement (.addVxNN x nn) := fun _ => xnn_row x nn rfl
theorem ldVxVy (x : Reg) (y : Reg) : Statement (.ldVxVy x y) := fun _ => xys_row x y rfl
theorem orVxVy (x : Reg) (y : Reg) : Statement (.orVxVy x y) := fun _ => xys_row x y rfl
theorem andVxVy (x : Reg) (y : Reg) : Statement (.andVxVy x y) := fun _ => xys_row x y rfl
theorem xorVxVy (x : Reg) (y : Reg) : Statement (.xorVxVy x y) := fun _ => xys_row x y rfl
theorem addVxVy (x : Reg) (y : Reg) : Statement (.addVxVy x y) := fun _ => xys_row x y rfl
theorem subVxVy (x : Reg) (y : Reg) : Statement (.subVxVy x y) := fun _ => xys_row x y rfl
theorem shrVx (x : Reg) (y : Reg) : Statement (.shrVx x y) := fun _ => xys_row x y rfl
theorem subnVxVy (x : Reg) (y : Reg) : Statement (.subnVxVy x y) := fun _ => xys_row x y rfl
theorem shlVx (x : Reg) (y : Reg) : Statement (.shlVx x y) := fun _ => xys_row x y rfl
theorem sneVxVy (x : Reg) (y : Reg) : Statement (.sneVxVy x y) := fun _ => xys_row x y rfl
theorem ldIAddr (nnn : Addr) : Statement (.ldIAddr nnn) := fun _ => nnn_row nnn rfl
theorem jpV0Addr (nnn : Addr) : Statement (.jpV0Addr nnn) := fun _ => nnn_row nnn rfl
theorem rndVxNN (x : Reg) (nn : Byte) : Statement (.rndVxNN x nn) := fun _ => xnn_row x nn rfl
theorem drwVxVyN (x : Reg) (y : Reg) (n : Nat) : Statement (.drwVxVyN x y n) := fun _ => xyn_row x y _ rfl

end Sys2Proof.Laws.OpcodeTable
end

