-- ==== Sys2Proof/Laws/Step.lean ====
section
/-! SUPPORT. What a fetch and a step can do, said once: a claim about every step is a case analysis over `step_cases`. -/

namespace Sys2Proof.Machine

/-- The fetched word, where neither byte address raises (R111). -/
theorem fetch_of_ok (s : State) (h : s.params.addressPolicy = .wrap ∨ s.pc.toNat + 1 < memorySize) :
    fetch s = some (wordOfBytes (s.byteAt (s.pc.toNat % memorySize)) (s.byteAt ((s.pc.toNat + 1) % memorySize))) := by
  unfold fetch
  rw [State.memRead_of_ok s h, State.memRead_of_ok s (h.imp id fun h => by omega)]

/-- A fetch raises exactly under fault, with its second byte at or above 0x1000 (R111). -/
theorem fetch_eq_none_iff (s : State) :
    fetch s = none ↔ s.params.addressPolicy = .fault ∧ memorySize ≤ s.pc.toNat + 1 := by
  constructor
  · intro h
    by_contra hn
    have hok : s.params.addressPolicy = .wrap ∨ s.pc.toNat + 1 < memorySize := by
      cases hp : s.params.addressPolicy with
      | wrap => exact .inl rfl
      | fault => exact .inr (by by_contra hge; exact hn ⟨hp, Nat.not_lt.1 hge⟩)
    rw [fetch_of_ok s hok] at h
    cases h
  · rintro ⟨hp, hge⟩
    unfold fetch
    rw [(State.memRead_eq_none_iff s (s.pc.toNat + 1)).2 ⟨hp, hge⟩]
    cases s.memRead s.pc.toNat <;> rfl

/-- Everything a step that answers a next state can do (R110): nothing while halted, a fetch fault, an unknown word passed,
or the decoded instruction run on the state with PC advanced. -/
theorem step_cases {s t : State} (h : step s = .next t) :
    (∃ r, s.halt = some r ∧ t = s) ∨
    (s.halt = none ∧ fetch s = none ∧ t = raiseFatal .addressFault s.pc s) ∨
    (s.halt = none ∧ ∃ w, fetch s = some w ∧ ∃ why, decode w = .unknown why ∧ t = s.advancePc) ∨
    (s.halt = none ∧ ∃ w, fetch s = some w ∧ ∃ i, decode w = .instr i ∧ exec i s.advancePc = .next t) := by
  unfold step cycle at h
  cases hh : s.halt with
  | some r =>
    rw [hh] at h
    cases h
    exact .inl ⟨r, rfl, rfl⟩
  | none =>
    rw [hh] at h
    cases hf : fetch s with
    | none =>
      rw [hf] at h
      cases h
      exact .inr (.inl ⟨rfl, rfl, rfl⟩)
    | some w =>
      rw [hf] at h
      cases hd : decode w with
      | unknown why =>
        simp only [hd] at h
        cases h
        exact .inr (.inr (.inl ⟨rfl, w, rfl, why, hd, rfl⟩))
      | instr i =>
        simp only [hd] at h
        exact .inr (.inr (.inr ⟨rfl, w, rfl, i, hd, h⟩))

/-- An operation of the host other than a cycle answers a next state. -/
theorem hostStep_next_of_ne_cycle {op : HostOp} (h : op ≠ .cycle) (s : State) : ∃ t, hostStep op s = .next t := by
  cases op <;> first | exact ⟨_, rfl⟩ | exact absurd rfl h

end Sys2Proof.Machine
end

