-- ==== Sys2Proof/Tests/Slice0.lean ====
section
/-! SUPPORT. The model's own tests. Every expected result is written from the spec: the words from the patterns of
30_encoding.md R90, the states from the vectors of 95_test_vectors.md, named in each docstring. The witness_ theorems
show states and operands that meet the hypotheses of an obligation, at the boundary values of its clauses. -/

namespace Sys2Proof.Tests

open Sys2Proof Sys2Proof.Machine

-- One theorem at a time: a backlog of kernel evaluations, each on a thread of its own, would fill the memory.
set_option Elab.async false

/-! ### Helpers -/

/-- The outcome is a next state with `p`. -/
def nextHas (o : Host.Outcome State Fault Refusal) (p : State → Bool) : Bool :=
  match o with
  | .next t => p t
  | .fault _ => false
  | .refused _ => false

/-- The byte `b` placed at address `a`. -/
def poke (a : Nat) (b : Byte) (s : State) : State := s.setMem (Memory.write s.params s.mem a b)

/-- The word `w` placed at address `a`, PC at `a`. -/
def at_ (a w : Nat) (s : State) : State := (s.setPc (BitVec.ofNat 16 a)).withFetchWord 16 w

/-- VF_DEST = flag. -/
def vfFlag (s : State) : State := { s with params := { s.params with vfDest := .flag } }

/-- ADDRESS_POLICY = fault. -/
def policyFault (s : State) : State := { s with params := { s.params with addressPolicy := .fault } }

/-- SP at `k`. -/
def withSp (k : Fin 17) (s : State) : State := { s with sp := k }

/-- Two registers at `a` and `b`. -/
def regs (x : Reg) (a : Byte) (y : Reg) (b : Byte) : State := (State.reset.setReg x a).setReg y b

/-- The columns that are on in row `y`. -/
def row (d : Display) (y : Fin 32) : List Nat := (d[y].toList.zipIdx.filter (fun c => c.1)).map (fun c => c.2)

/-- One cycle with `w` at 0x200 leaves VX = a and VF = f, PC = 0x202. -/
def aluGives (s : State) (w : Nat) (x : Reg) (a f : Byte) : Bool :=
  nextHas (step (at_ 0x200 w s)) fun t => t.reg x == a && t.reg 15 == f && t.pc == 0x0202#16

/-- One cycle with `w` at `pc` leaves PC = pc'. -/
def pcGives (s : State) (pc w pc' : Nat) : Bool :=
  nextHas (step (at_ pc w s)) fun t => t.pc == BitVec.ofNat 16 pc' && t.halt == none

/-! ### WellFormed -/

/-- R83: N is an unsigned count 0 to 15. -/
theorem test_wellFormed_drw_accepts_15 : WellFormed (.drwVxVyN 15 15 15) ∧ WellFormed (.drwVxVyN 0 0 0) := by decide

/-- R83: N = 16 has no field. -/
theorem test_wellFormed_drw_refuses_16 : ¬ WellFormed (.drwVxVyN 1 2 16) := by decide

/-! ### Decoding: the words are written out from the patterns of R90 -/

/-- 00E0, 00EE, 1NNN, 2NNN, BNNN (DEC2, DEC4, DEC7, DEC16). -/
theorem test_decode_controlTransfer :
    decode 0b0000000011101110#16 = .instr .ret ∧
    decode 0b0001101010111100#16 = .instr (.jpAddr 0xABC#12) ∧
    decode 0b0010001100000000#16 = .instr (.callAddr 0x300#12) ∧
    decode 0b1011000100100011#16 = .instr (.jpV0Addr 0x123#12) := by decide

/-- 3XNN, 4XNN, 5XY0, 9XY0 (DEC8, DEC14). -/
theorem test_decode_conditionalSkip :
    decode 0b0011101001000010#16 = .instr (.seVxNN 10 0x42#8) ∧
    decode 0b0100101101000011#16 = .instr (.sneVxNN 11 0x43#8) ∧
    decode 0b0101000100100000#16 = .instr (.seVxVy 1 2) ∧
    decode 0b1001000100100000#16 = .instr (.sneVxVy 1 2) := by decide

/-- 6XNN, 7XNN, ANNN, CXNN. -/
theorem test_decode_immediates :
    decode 0b0110101000101111#16 = .instr (.ldVxNN 10 0x2F#8) ∧
    decode 0b0111010000000001#16 = .instr (.addVxNN 4 0x01#8) ∧
    decode 0b1010001000010000#16 = .instr (.ldIAddr 0x210#12) ∧
    decode 0b1100001100001111#16 = .instr (.rndVxNN 3 0x0F#8) := by decide

/-- 8XY0 to 8XY5. -/
theorem test_decode_alu :
    decode 0b1000110010100000#16 = .instr (.ldVxVy 12 10) ∧
    decode 0b1000000100100001#16 = .instr (.orVxVy 1 2) ∧
    decode 0b1000000100100010#16 = .instr (.andVxVy 1 2) ∧
    decode 0b1000000100100011#16 = .instr (.xorVxVy 1 2) ∧
    decode 0b1000101010110100#16 = .instr (.addVxVy 10 11) ∧
    decode 0b1000101010110101#16 = .instr (.subVxVy 10 11) := by decide

/-- 8XY6, 8XY7, 8XYE: the Y of the shifts is kept, not matched (DEC12, DEC13, R94). -/
theorem test_decode_shifts :
    decode 0b1000111100010110#16 = .instr (.shrVx 15 1) ∧
    decode 0b1000000100100111#16 = .instr (.subnVxVy 1 2) ∧
    decode 0b1000000100101110#16 = .instr (.shlVx 1 2) := by decide

/-- 00E0 and DXYN (DEC2, DEC17). -/
theorem test_decode_display :
    decode 0b0000000011100000#16 = .instr .cls ∧
    decode 0b1101000100100000#16 = .instr (.drwVxVyN 1 2 0) ∧
    decode 0b1101111111101111#16 = .instr (.drwVxVyN 15 14 15) := by decide

/-- DEC1, DEC3, DEC5, DEC6, DEC9, DEC10, DEC11, DEC15, DEC18, DEC19, DEC20. -/
theorem test_decode_unknown :
    decode 0x0000#16 = .unknown .class0 ∧ decode 0x00E1#16 = .unknown .class0 ∧
    decode 0x00FF#16 = .unknown .class0 ∧ decode 0x0123#16 = .unknown .class0 ∧
    decode 0x5121#16 = .unknown .seLowNibble ∧ decode 0x8128#16 = .unknown .aluSubOp ∧
    decode 0x812F#16 = .unknown .aluSubOp ∧ decode 0x812D#16 = .unknown .aluSubOp ∧
    decode 0x912F#16 = .unknown .sneLowNibble ∧ decode 0xE09E#16 = .unknown .classE ∧
    decode 0xF00A#16 = .unknown .classF ∧ decode 0xFFFF#16 = .unknown .classF := by decide

/-- R62: the byte at the lower address is the high half; one byte is no instruction. -/
theorem test_decodeBytes :
    decodeBytes [0x6A#8, 0x2F#8] = .instr (.ldVxNN 10 0x2F#8) ∧ decodeBytes [0x6A#8] = .unknown .tooShort := by decide

/-- The encoder on the words of programs P2 and P3. -/
theorem test_encode :
    encode (.addVxVy 10 11) = 0x8AB4#16 ∧ encode (.drwVxVyN 0 1 2) = 0xD012#16 ∧
    encode (assembleShl 12) = 0x8C0E#16 ∧ encodeBytes (.callAddr 0x300#12) = [0x23#8, 0x00#8] := by decide

/-- R97's spelling, on lines of the listings of P1 to P4. -/
theorem test_asmText :
    asmText (.seVxNN 0 0x00#8) = "SE V0,0x00" ∧ asmText (.jpAddr 0x204#12) = "JP 0x204" ∧
    asmText (.ldIAddr 0x210#12) = "LD I,0x210" ∧ asmText (.jpV0Addr 0x206#12) = "JP V0,0x206" ∧
    asmText (.shlVx 12 0) = "SHL VC" := by decide +kernel

/-- The host's question on two rows of the opcode table: the row's own match word, 16 bits. -/
theorem test_decodeTableWord :
    decodeTableWord 16 0x8006 = some (.shrVx 0 0) ∧ decodeTableWord 16 0xFFFF = none := by decide

/-! ### The cycle -/

/-- CYC2: a fetch at an odd address. -/
theorem test_CYC2 :
    nextHas (step (at_ 0x201 0x6A07 State.reset)) (fun t => t.reg 10 == 0x07#8 && t.pc == 0x0203#16) = true := by
  decide +kernel

/-- CYC3: the second byte wraps to MEM[000], the first font byte. -/
theorem test_CYC3 :
    nextHas (step (poke 0xFFF 0x10 (State.reset.setPc 0x0FFF#16))) (fun t => t.pc == 0x00F0#16) = true := by
  decide +kernel

/-- CYC4: the same under ADDRESS_POLICY = fault. -/
theorem test_CYC4 :
    nextHas (step (poke 0xFFF 0x10 (policyFault (State.reset.setPc 0x0FFF#16))))
      (fun t => t.pc == 0x0FFF#16 && t.halt == some ⟨.addressFault, 0x0FFF#16⟩) = true := by
  decide +kernel

/-- CYC5: an unknown word. -/
theorem test_CYC5 :
    nextHas (step (at_ 0x200 0xE09E State.reset)) (fun t => t.pc == 0x0202#16 && t.halt == none) = true ∧
    cycleOutcome (at_ 0x200 0xE09E State.reset) = some (.reported 0xE09E#16 0x0200#16) := by
  decide +kernel

/-- CYC6: halted. -/
theorem test_CYC6 :
    nextHas (step ((at_ 0x202 0x6005 State.reset).setHalt (some ⟨.stackUnderflow, 0x0200#16⟩)))
      (fun t => t.pc == 0x0202#16 && t.reg 0 == 0x00#8 && t.halt == some ⟨.stackUnderflow, 0x0200#16⟩) = true := by
  decide +kernel

/-- CYC8: PC = 0x1002 under wrap fetches 9090 from 0x002, SNE V0,V9, not taken. -/
theorem test_CYC8 : nextHas (step (State.reset.setPc 0x1002#16)) (fun t => t.pc == 0x1004#16) = true := by
  decide +kernel

/-- CYC9: the same under ADDRESS_POLICY = fault. -/
theorem test_CYC9 :
    cycleOutcome (policyFault (State.reset.setPc 0x1002#16)) = some (.fatal ⟨.addressFault, 0x1002#16⟩) := by
  decide +kernel

/-! ### Control transfer -/

/-- CT1, CT2: JP, and JP to itself. -/
theorem test_CT1_CT2 :
    pcGives State.reset 0x200 0x1234 0x234 = true ∧ pcGives State.reset 0x200 0x1200 0x200 = true := by
  decide +kernel

/-- CT3: CALL. -/
theorem test_CT3 :
    nextHas (step (at_ 0x204 0x2300 State.reset))
      (fun t => t.stack[0] == 0x0206#16 && t.sp == 1 && t.pc == 0x0300#16) = true := by
  decide +kernel

/-- CT7: the 17th CALL. -/
theorem test_CT7 :
    nextHas (step (at_ 0x400 0x2500 (withSp 16 State.reset)))
      (fun t => t.pc == 0x0402#16 && t.sp == 16 && t.halt == some ⟨.stackOverflow, 0x0400#16⟩) = true := by
  decide +kernel

/-- CT4: RET. -/
theorem test_CT4 :
    nextHas (step (at_ 0x308 0x00EE { State.reset with sp := 1, stack := State.reset.stack.set 0 0x0206#16 }))
      (fun t => t.stack[0] == 0x0206#16 && t.sp == 0 && t.pc == 0x0206#16) = true := by
  decide +kernel

/-- CT5: RET with nothing on the stack. -/
theorem test_CT5 :
    nextHas (step (at_ 0x200 0x00EE State.reset))
      (fun t => t.pc == 0x0202#16 && t.sp == 0 && t.halt == some ⟨.stackUnderflow, 0x0200#16⟩) = true := by
  decide +kernel

/-- CT8, CT10: JP V0, the sum in full. -/
theorem test_CT8_CT10 :
    pcGives (State.reset.setReg 0 0x04) 0x200 0xB206 0x20A = true ∧
    pcGives (State.reset.setReg 0 0xFF) 0x200 0xBFFF 0x10FE = true := by
  decide +kernel

/-! ### Conditional skips -/

/-- SK1, SK2, SK5: SE Vx,NN. -/
theorem test_SK1_SK2_SK5 :
    pcGives (State.reset.setReg 3 0x42) 0x200 0x3342 0x204 = true ∧
    pcGives (State.reset.setReg 3 0x41) 0x200 0x3342 0x202 = true ∧
    pcGives State.reset 0xFFE 0x3000 0x1002 = true := by
  decide +kernel

/-- SK3, SK4: SNE Vx,NN. -/
theorem test_SK3_SK4 :
    pcGives (State.reset.setReg 3 0x42) 0x200 0x4342 0x202 = true ∧
    pcGives State.reset 0x200 0x4342 0x204 = true := by
  decide +kernel

/-- SK6, SK7: SE Vx,Vy. -/
theorem test_SK6_SK7 :
    pcGives (regs 1 0x07 2 0x07) 0x200 0x5120 0x204 = true ∧
    pcGives (regs 1 0x07 2 0x08) 0x200 0x5120 0x202 = true := by
  decide +kernel

/-- SK9, SK10: SNE Vx,Vy. -/
theorem test_SK9_SK10 :
    pcGives (regs 1 0x07 2 0x08) 0x200 0x9120 0x204 = true ∧
    pcGives (regs 1 0x07 2 0x07) 0x200 0x9120 0x202 = true := by
  decide +kernel

/-! ### Registers and the ALU -/

/-- ALU1: LD Vx,NN. -/
theorem test_ALU1 : aluGives State.reset 0x6A2F 10 0x2F 0x00 = true := by decide +kernel

/-- ALU3, ALU5: ADD Vx,NN wraps, and touches VF only as VX. -/
theorem test_ALU3_ALU5 :
    aluGives (regs 0 0x05 15 0x55) 0x70FF 0 0x04 0x55 = true ∧
    aluGives (State.reset.setReg 15 0x10) 0x7F05 15 0x15 0x15 = true := by
  decide +kernel

/-- ALU6: LD Vx,Vy. -/
theorem test_ALU6 : aluGives (State.reset.setReg 10 0xFF) 0x8CA0 12 0xFF 0x00 = true := by decide +kernel

/-- ALU7 to ALU9: OR, AND, XOR leave VF. -/
theorem test_ALU7_ALU8_ALU9 :
    aluGives ((regs 1 0x0F 2 0xF0).setReg 15 0x55) 0x8121 1 0xFF 0x55 = true ∧
    aluGives ((regs 1 0x3C 2 0x0F).setReg 15 0x55) 0x8122 1 0x0C 0x55 = true ∧
    aluGives ((regs 1 0x3C 2 0x0F).setReg 15 0x55) 0x8123 1 0x33 0x55 = true := by
  decide +kernel

/-- ALU14, ALU15: ADD Vx,Vy. -/
theorem test_ALU14_ALU15 :
    aluGives (regs 1 0xFF 2 0xFF) 0x8124 1 0xFE 0x01 = true ∧
    aluGives ((regs 1 0x7F 2 0x80).setReg 15 0x01) 0x8124 1 0xFF 0x00 = true := by
  decide +kernel

/-- ALU20, ALU21: ADD VF,V1 under both values of VF_DEST. -/
theorem test_ALU20_ALU21 :
    aluGives (regs 15 0x10 1 0x20) 0x8F14 15 0x30 0x30 = true ∧
    aluGives (vfFlag (regs 15 0x10 1 0x20)) 0x8F14 15 0x00 0x00 = true ∧
    aluGives (regs 15 0xF0 1 0x20) 0x8F14 15 0x10 0x10 = true ∧
    aluGives (vfFlag (regs 15 0xF0 1 0x20)) 0x8F14 15 0x01 0x01 = true := by
  decide +kernel

/-- ALU16, ALU17: SUB borrows; equal operands do not. -/
theorem test_ALU16_ALU17 :
    aluGives (regs 10 0x01 11 0x02) 0x8AB5 10 0xFF 0x00 = true ∧
    aluGives (regs 1 0x42 2 0x42) 0x8125 1 0x00 0x01 = true := by
  decide +kernel

/-- ALU22: the operands are read before VF is written. -/
theorem test_ALU22 : aluGives (regs 10 0x05 15 0x07) 0x8AF5 10 0xFE 0x00 = true := by decide +kernel

/-- ALU19, ALU23: SUBN. -/
theorem test_ALU19_ALU23 :
    aluGives (regs 1 0x10 2 0x30) 0x8127 1 0x20 0x01 = true ∧
    aluGives (regs 1 0x01 2 0x00) 0x8127 1 0xFF 0x00 = true := by
  decide +kernel

/-- ALU29, ALU30: SHR ignores Y; SHR VF under both values of VF_DEST. -/
theorem test_ALU29_ALU30 :
    aluGives (regs 3 0x81 4 0x00) 0x8346 3 0x40 0x01 = true ∧
    aluGives (State.reset.setReg 15 0x02) 0x8F06 15 0x01 0x01 = true ∧
    aluGives (vfFlag (State.reset.setReg 15 0x02)) 0x8F06 15 0x00 0x00 = true := by
  decide +kernel

/-- ALU33, ALU35: SHL; SHL VF under both values of VF_DEST. -/
theorem test_ALU33_ALU35 :
    aluGives (State.reset.setReg 1 0x81) 0x810E 1 0x02 0x01 = true ∧
    aluGives (State.reset.setReg 15 0x81) 0x8F0E 15 0x02 0x02 = true ∧
    aluGives (vfFlag (State.reset.setReg 15 0x81)) 0x8F0E 15 0x01 0x01 = true := by
  decide +kernel

/-- ALU37: LD I. -/
theorem test_ALU37 :
    nextHas (step (at_ 0x200 0xAFFF State.reset)) (fun t => t.i == 0x0FFF#16 && t.pc == 0x0202#16) = true := by
  decide +kernel

/-- ALU38: RND stores the byte drawn AND NN, whatever the byte is. -/
theorem test_ALU38 :
    exec (.rndVxNN 3 0x0F#8) State.reset =
      .next { State.reset.setReg 3 (Config.rngByte 0 &&& 0x0F#8) with rngDraws := 1 } := rfl

/-- ALU39: a draw is made with NN = 0 too. -/
theorem test_ALU39 : nextHas (step (at_ 0x200 0xC300 State.reset)) (fun t => t.rngDraws == 1) = true := by
  decide +kernel

/-! ### The display -/

/-- DSP1, DSP2: CLS, on a display with its last pixel on, and on a blank one. -/
theorem test_DSP1_DSP2 :
    nextHas (step (at_ 0x200 0x00E0 (State.reset.setPix (Display.blank.put 63 31 true))))
      (fun t => !t.pix.get 63 31 && t.dirty) = true ∧
    nextHas (step (at_ 0x200 0x00E0 State.reset)) (fun t => !t.pix.get 63 31 && t.dirty) = true := by
  decide +kernel

/-- DSP3 (SRC6), DSP10: DRW wraps horizontally; a collision. -/
theorem test_DSP3_DSP10 :
    nextHas (step (at_ 0x200 0xD011 (poke 0x300 0xFF ((State.reset.setReg 0 0x3C).setI 0x0300#16))))
      (fun t => row t.pix 0 == [0, 1, 2, 3, 60, 61, 62, 63] && t.reg 15 == 0x00#8 && t.dirty) = true ∧
    nextHas (step (at_ 0x200 0xD011 (poke 0x300 0xC0 ((State.reset.setPix (Display.blank.put 1 0 true)).setI 0x0300#16))))
      (fun t => row t.pix 0 == [0] && t.reg 15 == 0x01#8) = true := by
  decide +kernel

/-- DSP12, DSP13: a sprite whose second row wraps to MEM[000]; under fault its byte is read before any pixel is
written. -/
theorem test_DSP12_DSP13 :
    nextHas (step (at_ 0x200 0xD012 (poke 0xFFF 0x80 (State.reset.setI 0x0FFF#16))))
      (fun t => row t.pix 0 == [0] && row t.pix 1 == [0, 1, 2, 3] && t.reg 15 == 0x00#8) = true ∧
    nextHas (step (at_ 0x200 0xD012 (poke 0xFFF 0x80 (policyFault ((State.reset.setReg 15 0x55).setI 0x0FFF#16)))))
      (fun t => row t.pix 0 == [] && t.reg 15 == 0x55#8 && !t.dirty && t.pc == 0x0202#16 &&
        t.halt == some ⟨.addressFault, 0x0200#16⟩) = true := by
  decide +kernel

/-! ### The host's operations -/

/-- TMR1, TMR2, TMR4. -/
theorem test_TMR1_TMR2_TMR4 :
    (tick (State.reset.setTimers 0x03 0x01)).dt = 0x02#8 ∧ (tick (State.reset.setTimers 0x03 0x01)).st = 0x00#8 ∧
    (tick State.reset).dt = 0x00#8 ∧
    (tick ((State.reset.setTimers 0x03 0x00).setHalt (some ⟨.stackOverflow, 0x0200#16⟩))).dt = 0x03#8 := by
  decide +kernel

/-- RST1: the first and the last glyph, the byte after the table, PC and HALT. -/
theorem test_RST1 :
    let s := (withSp 16 State.reset).setHalt (some ⟨.stackOverflow, 0x0400#16⟩)
    (s.resetMachine.memReadList 0x000 5 = some [0xF0, 0x90, 0x90, 0x90, 0xF0]) ∧
    (s.resetMachine.memReadList 0x04B 6 = some [0xF0, 0x80, 0xF0, 0x80, 0x80, 0x00]) ∧
    s.resetMachine.pc = 0x0200#16 ∧ s.resetMachine.sp = 0 ∧ s.resetMachine.halt = none := by
  decide +kernel

/-- LOAD5: a Load in a halted machine copies and leaves HALT. -/
theorem test_LOAD5 :
    let s := load [0x12, 0x34] (State.reset.setHalt (some ⟨.stackUnderflow, 0x0200#16⟩))
    s.memReadList 0x200 3 = some [0x12, 0x34, 0x00] ∧ s.halt = some ⟨.stackUnderflow, 0x0200#16⟩ := by
  decide +kernel

/-- LOAD1, LOAD2, what the operation returns (R286). -/
theorem test_LOAD1_LOAD2 :
    loadResult (List.replicate 3584 0xAA) = .ok ∧ loadResult (List.replicate 3585 0xAA) = .capacityError 3585 := by
  constructor <;> rw [loadResult, List.length_replicate] <;> rfl

/-- HOST1 to HOST3. -/
theorem test_HOST1_HOST2_HOST3 :
    (clearDirty (State.reset.setDirty true)).dirty = false ∧ (setKey 10 true State.reset).key[10] = true ∧
    (flattenDisplay (view (State.reset.setPix (Display.blank.put 3 5 true))).pix)[323]? = some true := by
  decide +kernel

/-- R240: the codes. -/
theorem test_errorCodes :
    errorCode .unknownOpcode = 1 ∧ errorCode (errorOfFatal .stackOverflow) = 2 ∧
    errorCode (errorOfFatal .stackUnderflow) = 3 ∧ errorCode (errorOfFatal .addressFault) = 4 ∧
    errorCode .capacityError = 5 := by decide

/-! ### Witnesses: the hypotheses of the obligations, met together -/

/-- StepRunsTheDecodedInstruction: JP 0x234 at 0x200. -/
theorem witness_StepRunsTheDecodedInstruction :
    let s := at_ 0x200 0x1234 State.reset
    s.halt = none ∧ s.memRead s.pc.toNat = some 0x12#8 ∧ s.memRead (s.pc.toNat + 1) = some 0x34#8 ∧
      decodeBytes [0x12#8, 0x34#8] = .instr (.jpAddr 0x234#12) := by
  decide +kernel

/-- A state that runs, its fetch giving `w`. -/
abbrev Fetches (s : State) (w : Word) : Prop := s.halt = none ∧ fetch s = some w

/-- FetchAdvancesPcBeforeDispatch: an unknown word, a JP and a JP V0, at the ends of PC's range. -/
theorem witness_FetchAdvances_unknown_jp :
    Fetches (at_ 0xFFFE 0xE09E State.reset) 0xE09E#16 ∧ decode 0xE09E#16 = .unknown .classE ∧
    Fetches (at_ 0x0000 0x1FFF State.reset) 0x1FFF#16 ∧ decode 0x1FFF#16 = .instr (.jpAddr 0xFFF#12) ∧
    Fetches (at_ 0xFFFF 0xBFFF (State.reset.setReg 0 0xFF)) 0xBFFF#16 ∧
      decode 0xBFFF#16 = .instr (.jpV0Addr 0xFFF#12) := by
  decide +kernel

/-- FetchAdvancesPcBeforeDispatch: CALL with SP = 0 and 15, RET with SP = 1 and 16. -/
theorem witness_FetchAdvances_call_ret :
    Fetches (at_ 0x200 0x2300 State.reset) 0x2300#16 ∧ decode 0x2300#16 = .instr (.callAddr 0x300#12) ∧
    Fetches (at_ 0x200 0x2300 (withSp 15 State.reset)) 0x2300#16 ∧ (15 : Fin 17).val < 16 ∧
    Fetches (at_ 0x200 0x00EE (withSp 1 State.reset)) 0x00EE#16 ∧ decode 0x00EE#16 = .instr .ret ∧
    Fetches (at_ 0x200 0x00EE (withSp 16 State.reset)) 0x00EE#16 ∧ 0 < (1 : Fin 17).val := by
  decide +kernel

/-- FetchAdvancesPcBeforeDispatch: the four skips, PC at its largest. -/
theorem witness_FetchAdvances_skips :
    Fetches (at_ 0xFFFF 0x3000 State.reset) 0x3000#16 ∧ decode 0x3000#16 = .instr (.seVxNN 0 0x00#8) ∧
    Fetches (at_ 0xFFFF 0x4000 State.reset) 0x4000#16 ∧ decode 0x4000#16 = .instr (.sneVxNN 0 0x00#8) ∧
    Fetches (at_ 0xFFFF 0x5120 State.reset) 0x5120#16 ∧ decode 0x5120#16 = .instr (.seVxVy 1 2) ∧
    Fetches (at_ 0xFFFF 0x9120 State.reset) 0x9120#16 ∧ decode 0x9120#16 = .instr (.sneVxVy 1 2) := by
  decide +kernel

/-- UnknownWordOnlyAdvancesPc: the word 0x0000 of empty memory at reset. -/
theorem witness_UnknownWordOnlyAdvancesPc :
    Fetches State.reset 0x0000#16 ∧ decode 0x0000#16 = .unknown .class0 := by
  decide +kernel

/-- A halted state. -/
def haltedState : State := State.reset.setHalt (some ⟨.stackUnderflow, 0x0200#16⟩)

/-- HaltedCycleAndTickChangeNothing. -/
theorem witness_HaltedCycleAndTickChangeNothing : haltedState.halt = some ⟨.stackUnderflow, 0x0200#16⟩ := by decide

/-- FetchFaultHaltsBeforeTheAdvance: PC = 0xFFF, the first at which the second byte is outside. -/
theorem witness_FetchFaultHaltsBeforeTheAdvance :
    let s := policyFault (State.reset.setPc 0x0FFF#16)
    s.halt = none ∧ s.params.addressPolicy = .fault ∧ 4096 ≤ s.pc.toNat + 1 := by
  decide +kernel

/-- FetchIsBigEndian, PlacedWordIsWhatTheNextStepRuns: wrap at PC = 0xFFFF; fault at PC = 0xFFE, the last. -/
theorem witness_FetchIsBigEndian :
    (State.reset.setPc 0xFFFF#16).params.addressPolicy = .wrap ∧
    (policyFault (State.reset.setPc 0x0FFE#16)).params.addressPolicy = .fault ∧
    (policyFault (State.reset.setPc 0x0FFE#16)).pc.toNat + 1 < 4096 := by
  decide +kernel

/-- FatalOutcomeIsTheHaltRecord: both sides hold of RET with an empty stack, and neither of JP. -/
theorem witness_FatalOutcomeIsTheHaltRecord :
    (at_ 0x200 0x00EE State.reset).halt = none ∧
    cycleOutcome (at_ 0x200 0x00EE State.reset) = some (.fatal ⟨.stackUnderflow, 0x0200#16⟩) ∧
    cycleOutcome (at_ 0x200 0x1234 State.reset) = some .ok := by
  decide +kernel

/-- OwnErrorWritesOnlyHalt: each of the three errors; DRW's at I = 0xFFF with its last row outside. -/
theorem witness_OwnErrorWritesOnlyHalt :
    ownError (.callAddr 0x300#12) (withSp 16 State.reset) = some .stackOverflow ∧
    ownError .ret State.reset = some .stackUnderflow ∧
    ownError (.drwVxVyN 0 1 2) (policyFault (State.reset.setI 0x0FFF#16)) = some .addressFault := by
  decide +kernel

/-- FrameOfEveryInstruction: the three that can raise an error, at the last values that raise none; one that cannot. -/
theorem witness_FrameOfEveryInstruction :
    ownError (.callAddr 0x300#12) (withSp 15 State.reset) = none ∧
    ownError .ret (withSp 1 State.reset) = none ∧
    ownError (.drwVxVyN 0 1 1) (policyFault (State.reset.setI 0x0FFF#16)) = none ∧
    ownError (.drwVxVyN 0 1 15) (State.reset.setI 0x0FFF#16) = none ∧
    ownError (.addVxVy 15 15) State.reset = none := by
  decide +kernel

/-- CycleKeepsTimersAndDrawsOnlyForRnd, CycleIgnoresKeysAndTimers: a step with a next state, timers not 0. -/
theorem witness_step_next :
    step (State.reset.setTimers 0x03 0x01) = .next (State.reset.setTimers 0x03 0x01).advancePc := rfl

/-- ParkIsAFixedPoint (CYC7): 1300 at 0x300. -/
theorem witness_ParkIsAFixedPoint :
    let s := at_ 0x300 0x1300 State.reset
    s.halt = none ∧ s.pc.toNat = (0x300#12).toNat ∧ fetch s = some (0x1#4 ++ 0x300#12) := by
  decide +kernel

/-- OnlyRndDependsOnRng: LD. -/
theorem witness_OnlyRndDependsOnRng :
    (∀ x nn, Instr.ldVxNN 0 0x05#8 ≠ .rndVxNN x nn) ∧
      exec (.ldVxNN 0 0x05#8) State.reset = .next (State.reset.setReg 0 0x05#8) :=
  ⟨fun _ _ h => (nomatch h), rfl⟩

/-- PlacedWordIsWhatTheNextStepRuns: the memory of reset, and one with a byte in it. -/
theorem witness_PlacedWord_wf :
    Memory.wf State.reset.params State.reset.mem ∧
    Memory.wf (poke 0xFFF 0x80 State.reset).params (poke 0xFFF 0x80 State.reset).mem := by
  decide +kernel

/-- CallPushesThePc, CallOverflowHalts, RetPopsThePc, RetUnderflowHalts: SP = 0, 15; 16; 1, 16; 0. -/
theorem witness_stack_bounds :
    (withSp 0 State.reset).sp.val < 16 ∧ (withSp 15 State.reset).sp.val < 16 ∧ (withSp 16 State.reset).sp.val = 16 ∧
    0 < (withSp 1 State.reset).sp.val ∧ 0 < (withSp 16 State.reset).sp.val ∧ (withSp 0 State.reset).sp.val = 0 := by
  decide

/-- NestedCallsReturn: 16 calls on an empty stack, none on a full one. -/
theorem witness_NestedCallsReturn :
    State.reset.sp.val + (List.replicate 16 (0x300#12 : Addr)).length ≤ 16 ∧
    (withSp 16 State.reset).sp.val + ([] : List Addr).length ≤ 16 := by
  decide

/-- SeventeenthCallOverflows: 17 calls on an empty stack, one on a full one. -/
theorem witness_SeventeenthCallOverflows :
    State.reset.halt = none ∧ State.reset.sp.val + (List.replicate 17 (0x300#12 : Addr)).length = 17 ∧
    (withSp 16 State.reset).halt = none ∧ (withSp 16 State.reset).sp.val + [(0x300#12 : Addr)].length = 17 := by
  decide

/-- The flag and the result: both clauses of the condition of ADD Vx,Vy at its boundary, 255 and 256, the same of SUB and
SUBN at equal operands and one apart, of the shifts at a 0 and a 1 bit. -/
theorem witness_flag_boundaries :
    ¬ 255 < (0xFF#8).toNat + (0x00#8).toNat ∧ 255 < (0xFF#8).toNat + (0x01#8).toNat ∧
    (0x42#8).toNat ≤ (0x42#8).toNat ∧ ¬ (0x43#8).toNat ≤ (0x42#8).toNat ∧
    (0x01#8).toNat % 2 = 1 ∧ ¬ (0xFE#8).toNat % 2 = 1 ∧ 128 ≤ (0x80#8).toNat ∧ ¬ 128 ≤ (0x7F#8).toNat := by
  decide

/-- DrwXorsTheSprite, DrawingTwiceRestoresTheDisplay: N = 15 and N = 0, under wrap at I = 0xFFF, under fault with the last
row at 0xFFF; X and Y other than F. -/
theorem witness_DrwXorsTheSprite :
    WellFormed (.drwVxVyN 0 1 15) ∧ SpriteReadable (State.reset.setI 0x0FFF#16) 15 ∧
    SpriteReadable (policyFault (State.reset.setI 0x0FF1#16)) 15 ∧
    WellFormed (.drwVxVyN 0 1 0) ∧ SpriteReadable (policyFault (State.reset.setI 0xFFFF#16)) 0 ∧
    (0 : Reg) ≠ regF ∧ (1 : Reg) ≠ regF := by
  refine ⟨by decide, Or.inl (by decide), Or.inr ?_, by decide, Or.inr (fun r h => absurd h (Nat.not_lt_zero r)),
    by decide, by decide⟩
  intro r h
  have e : (policyFault (State.reset.setI 0x0FF1#16)).i.toNat = 4081 := by decide
  rw [e]
  simp only [memorySize]
  omega

/-- DrwXorsTheSprite's clauses: the glyph "0" of the default font, at (0, 0), lights (0, 0) and does not light (1, 1). -/
theorem witness_spriteLights :
    spriteLights State.reset 0 1 5 0 0 ∧ ¬ spriteLights State.reset 0 1 5 1 1 := by
  constructor
  · exact ⟨0, 0, by decide, by decide, by decide +kernel, by decide +kernel, by decide +kernel⟩
  · rintro ⟨r, b, hr, hb, hbit, hx, hy⟩
    have ex : (State.reset.reg 0).toNat = 0 := by decide
    have ey : (State.reset.reg 1).toNat = 0 := by decide
    rw [ex] at hx
    rw [ey] at hy
    have hb1 : b = 1 := by
      have : ((1 : Fin 64)).val = 1 := rfl
      omega
    have hr1 : r = 1 := by
      have : ((1 : Fin 32)).val = 1 := rfl
      omega
    subst hb1 hr1
    revert hbit
    decide +kernel

/-- DrwAddressFaultHalts: fault, I = 0xFFF, the second of two rows at 0x1000. -/
theorem witness_DrwAddressFaultHalts :
    (policyFault (State.reset.setI 0x0FFF#16)).params.addressPolicy = .fault ∧
    ∃ r, r < 2 ∧ 4096 ≤ (policyFault (State.reset.setI 0x0FFF#16)).i.toNat + r :=
  ⟨by decide, 1, by decide, by decide⟩

/-- OnlyClsAndDrwWriteTheDisplay: Reset, CLS and DRW each change a display with pixel (1, 0) on. -/
theorem witness_OnlyClsAndDrwWriteTheDisplay :
    let s := State.reset.setPix (Display.blank.put 1 0 true)
    nextHas (hostStep .reset s) (fun t => !t.pix.get 1 0) = true ∧ s.pix.get 1 0 = true ∧
    nextHas (hostStep .cycle (at_ 0x200 0x00E0 s)) (fun t => !t.pix.get 1 0) = true ∧
    nextHas (hostStep .cycle (at_ 0x200 0xD015 s)) (fun t => !t.pix.get 1 0) = true := by
  decide +kernel

/-- DecodeOfEncode: the one instruction with a bound, at both ends. EncodeOfDecode: a word with every field nonzero. -/
theorem witness_DecodeOfEncode :
    WellFormed (.drwVxVyN 15 15 15) ∧ WellFormed (.drwVxVyN 0 0 0) ∧ decode 0x812E#16 = .instr (.shlVx 1 2) := by
  decide

/-- ResetValues: the state at power on, and a Reset from a halted state. -/
theorem witness_ResetValues : ∃ r : State, r = State.reset ∧ ∃ r' s : State, r' = s.resetMachine ∧ s.halt ≠ none :=
  ⟨_, rfl, _, haltedState, rfl, by decide⟩

/-- ResetMemoryHoldsTheFont: the start state, and a Reset of a machine with the largest FONT_BASE, 0x1B0. -/
theorem witness_ResetMemoryHoldsTheFont :
    State.reset.params.wf ∧
    ∃ s before : State, s = before.resetMachine ∧ s.params.fontBase = 0x1B0#12 ∧ s.params.wf :=
  ⟨by decide, _, { State.reset with params := { defaultParams with fontBase := 0x1B0#12 } }, rfl, rfl, by decide⟩

/-- LoadCapacityBoundary, LoadCopiesTheBufferOnly: a canonical memory, buffers of 3584, 3585 and 0 bytes. -/
theorem witness_LoadCapacityBoundary :
    Memory.wf State.reset.params State.reset.mem ∧ (List.replicate 3584 (0xAA#8 : Byte)).length = 3584 ∧
    (List.replicate 3585 (0xAA#8 : Byte)).length = 3585 ∧ ([] : List Byte).length ≤ 3584 := by
  refine ⟨by decide, List.length_replicate, List.length_replicate, by decide⟩

/-- TickDecrementsEachTimer, TimersCountDownIndependently: timers at 1 and 255 in a running state. -/
theorem witness_TickDecrementsEachTimer : (State.reset.setTimers 0x01 0xFF).halt = none := rfl

/-- ToneExactlyWhenSoundTimerNonzero: ST = 0 and ST = 1 (TMR6). -/
theorem witness_ToneExactlyWhenSoundTimerNonzero :
    toneOn State.reset = false ∧ toneOn (State.reset.setTimers 0x00 0x01) = true := by decide

/-- SetKeySetsOneKey: another key than the one set. -/
theorem witness_SetKeySetsOneKey : (15 : Fin 16) ≠ 0 := by decide

/-- OnlyResetClearsHalt: a halted state, Reset and another operation. -/
theorem witness_OnlyResetClearsHalt :
    haltedState.halt = some ⟨.stackUnderflow, 0x0200#16⟩ ∧
    hostStep .reset haltedState = .next haltedState.resetMachine ∧
    hostStep .cycle haltedState = .next haltedState := ⟨rfl, rfl, rfl⟩

/-- A state with a byte of a program in memory and a register set, for the invariant. -/
def runningState : State := (poke 0x200 0x60 State.reset).setI 0x0FFF#16

/-- StepKeepsTheInvariant, EveryInterleavingKeepsTheInvariant: a state that meets the invariant and steps. -/
theorem witness_StepKeepsTheInvariant :
    MachineInv runningState ∧ step runningState = .next (runningState.advancePc.setReg 0 0x00#8) ∧
      hostRun [.cycle] runningState = .next (runningState.advancePc.setReg 0 0x00#8) := by
  refine ⟨⟨by decide +kernel, ?_, by decide, ⟨rfl, rfl⟩, trivial⟩, rfl, rfl⟩
  intro a ha
  have e : runningState.mem = [(0x200, 0x60#8)] := by decide +kernel
  have hne : a ≠ 0x200 := by simp only [loadBase] at ha; omega
  simp [State.byteAt, e, Memory.read, hne]

/-- CanonicalMemoryIsDeterminedByReads: a memory with the largest address in it, and itself. -/
theorem witness_CanonicalMemoryIsDeterminedByReads :
    Memory.wf defaultParams [(0x200, 0x60#8), (0xFFF, 0x80#8)] ∧
    ∀ a : Nat, a < 4096 → Memory.read defaultParams [(0x200, 0x60#8), (0xFFF, 0x80#8)] a =
      Memory.read defaultParams [(0x200, 0x60#8), (0xFFF, 0x80#8)] a :=
  ⟨by decide +kernel, fun _ _ => rfl⟩

end Sys2Proof.Tests
end

namespace Sys2Proof.Proofs

open Sys2Proof Sys2Proof.Machine

/-! ### The host's ClearDirty and the sound output (10_state.md R47, R49) -/

/-- Settles O53: ClearDirty is the state's own `setDirty false`, whose field rule and frame answer the two claims. -/
theorem clearDirtyClearsOnlyDirty : Obligations.ClearDirtyClearsOnlyDirty := fun s =>
  ⟨rfl, State.setDirty_dirty s false, setDirty_onlyWrites s false⟩

/-- R49: the tone condition, in terms of the value of ST. -/
theorem toneOn_iff_st_toNat_ne_zero (s : State) : toneOn s = true ↔ s.st.toNat ≠ 0 :=
  calc toneOn s = true
    _ ↔ s.st ≠ 0x00#8 := bne_iff_ne
    _ ↔ s.st.toNat ≠ 0 := BitVec.toNat_ne_iff_ne.symm

/-- Settles O55: the view copies ST, and viewing is the identity on the state. -/
theorem toneExactlyWhenSoundTimerNonzero : Obligations.ToneExactlyWhenSoundTimerNonzero := fun s =>
  ⟨rfl, toneOn_iff_st_toNat_ne_zero s, rfl⟩

end Sys2Proof.Proofs

namespace Sys2Proof

open Sys2Proof.Machine

/-- Two operations in a row write only what the one or the other writes. -/
theorem OnlyWrites.append {ps qs : List Part} {s t u : State} (h : OnlyWrites ps s t) (k : OnlyWrites qs t u) :
    OnlyWrites (ps ++ qs) s u :=
  (h.mono fun _ hp => List.mem_append_left qs hp).trans (k.mono fun _ hq => List.mem_append_right ps hq)

end Sys2Proof

namespace Sys2Proof.Proofs

open Sys2Proof Sys2Proof.Machine

/-! ### What executing one instruction can do (40_engine.md R113) -/

/-- The next state `t` of an executed instruction: it completed and wrote only the parts its rule lists, or it raised a
fatal error at its own address. -/
def CompletesOrRaises (i : Instr) (s t : State) : Prop :=
  OnlyWrites (partsWritten i) s t ∨ ∃ k, t = raiseFatal k s.ia s

/-- R130: the one error is the empty stack, which `pop` answers with `none`. -/
theorem execRet_completesOrRaises (s : State) :
    ∃ t, execRet s = .next t ∧ CompletesOrRaises .ret s t := by
  unfold execRet
  cases hp : s.pop with
  | none => exact ⟨_, rfl, .inr ⟨_, rfl⟩⟩
  | some p =>
    exact ⟨_, rfl, .inl (((pop_onlyWrites hp).append (setPc_onlyWrites _ _)).mono (by simp [partsWritten]))⟩

/-- R132: the one error is the full stack, which `push` answers with `none`. -/
theorem execCallAddr_completesOrRaises (nnn : Addr) (s : State) :
    ∃ t, execCallAddr nnn s = .next t ∧ CompletesOrRaises (.callAddr nnn) s t := by
  unfold execCallAddr
  cases hp : s.push s.pc with
  | none => exact ⟨_, rfl, .inr ⟨_, rfl⟩⟩
  | some u =>
    exact ⟨_, rfl, .inl (((push_onlyWrites hp).append (setPc_onlyWrites _ _)).mono (by simp [partsWritten]))⟩

/-- R222: the one error is a sprite byte that cannot be read, found before anything is written. -/
theorem execDrwVxVyN_completesOrRaises (x y : Reg) (n : Nat) (s : State) :
    ∃ t, execDrwVxVyN x y n s = .next t ∧ CompletesOrRaises (.drwVxVyN x y n) s t := by
  unfold execDrwVxVyN
  cases opSprite s n with
  | none => exact ⟨_, rfl, .inr ⟨_, rfl⟩⟩
  | some rows =>
    exact ⟨_, rfl, .inl ((((setPix_onlyWrites s _).append (setReg_onlyWrites _ _ _)).append
      (setDirty_onlyWrites _ _)).mono (by simp [partsWritten]))⟩

/-- Every instruction answers a next state from every state, and what it did there. -/
theorem exec_completesOrRaises (i : Instr) (s : State) :
    ∃ t, exec i s = .next t ∧ CompletesOrRaises i s t := by
  cases i with
  | cls => exact ⟨_, rfl, .inl ((setPix_onlyWrites s _).append (setDirty_onlyWrites _ _))⟩
  | ret => exact execRet_completesOrRaises s
  | jpAddr nnn => exact ⟨_, rfl, .inl (setPc_onlyWrites s _)⟩
  | callAddr nnn => exact execCallAddr_completesOrRaises nnn s
  | seVxNN x nn => exact ⟨_, rfl, .inl (skipIf_onlyWrites _ s)⟩
  | sneVxNN x nn => exact ⟨_, rfl, .inl (skipIf_onlyWrites _ s)⟩
  | seVxVy x y => exact ⟨_, rfl, .inl (skipIf_onlyWrites _ s)⟩
  | ldVxNN x nn => exact ⟨_, rfl, .inl (setReg_onlyWrites s x _)⟩
  | addVxNN x nn => exact ⟨_, rfl, .inl (setReg_onlyWrites s x _)⟩
  | ldVxVy x y => exact ⟨_, rfl, .inl (setReg_onlyWrites s x _)⟩
  | orVxVy x y => exact ⟨_, rfl, .inl (setReg_onlyWrites s x _)⟩
  | andVxVy x y => exact ⟨_, rfl, .inl (setReg_onlyWrites s x _)⟩
  | xorVxVy x y => exact ⟨_, rfl, .inl (setReg_onlyWrites s x _)⟩
  | addVxVy x y => exact ⟨_, rfl, .inl (writeFlagResult_onlyWrites x _ _ s)⟩
  | subVxVy x y => exact ⟨_, rfl, .inl (writeFlagResult_onlyWrites x _ _ s)⟩
  | shrVx x y => exact ⟨_, rfl, .inl (writeFlagResult_onlyWrites x _ _ s)⟩
  | subnVxVy x y => exact ⟨_, rfl, .inl (writeFlagResult_onlyWrites x _ _ s)⟩
  | shlVx x y => exact ⟨_, rfl, .inl (writeFlagResult_onlyWrites x _ _ s)⟩
  | sneVxVy x y => exact ⟨_, rfl, .inl (skipIf_onlyWrites _ s)⟩
  | ldIAddr nnn => exact ⟨_, rfl, .inl (setI_onlyWrites s _)⟩
  | jpV0Addr nnn => exact ⟨_, rfl, .inl (setPc_onlyWrites s _)⟩
  | rndVxNN x nn =>
    exact ⟨_, rfl, .inl (((drawRng_onlyWrites s).append (setReg_onlyWrites _ x _)).mono (by simp [partsWritten]))⟩
  | drwVxVyN x y n => exact execDrwVxVyN_completesOrRaises x y n s

theorem completesOrRaises_of_exec {i : Instr} {s t : State} (h : exec i s = .next t) : CompletesOrRaises i s t := by
  obtain ⟨u, hu, hw⟩ := exec_completesOrRaises i s
  rw [hu] at h
  cases h
  exact hw

/-! ### Timers and random draws in one instruction (R118, R197) -/

/-- No instruction writes a timer (R29). -/
theorem exec_timers {i : Instr} {s t : State} (h : exec i s = .next t) : t.dt = s.dt ∧ t.st = s.st := by
  rcases completesOrRaises_of_exec h with hw | ⟨k, rfl⟩
  · exact ⟨hw.dt, hw.st⟩
  · exact ⟨raiseFatal_dt .., raiseFatal_st ..⟩

/-- RND is the one instruction whose rule lists a draw. -/
theorem rng_mem_partsWritten_iff (i : Instr) : Part.rng ∈ partsWritten i ↔ ∃ x nn, i = .rndVxNN x nn := by
  cases i <;> simp [partsWritten]

theorem exec_rndVxNN_rngDraws {x : Reg} {nn : Byte} {s t : State} (h : exec (.rndVxNN x nn) s = .next t) :
    t.rngDraws = s.rngDraws + 1 := by
  cases h
  rfl

/-- An instruction draws at most once, and only as RND. -/
theorem exec_rngDraws {i : Instr} {s t : State} (h : exec i s = .next t) :
    t.rngDraws = s.rngDraws ∨ t.rngDraws = s.rngDraws + 1 ∧ ∃ x nn, i = .rndVxNN x nn := by
  by_cases hi : Part.rng ∈ partsWritten i
  · obtain ⟨x, nn, rfl⟩ := (rng_mem_partsWritten_iff i).1 hi
    exact .inr ⟨exec_rndVxNN_rngDraws h, x, nn, rfl⟩
  · rcases completesOrRaises_of_exec h with hw | ⟨k, rfl⟩
    · exact .inl (hw.rng hi)
    · exact .inl (raiseFatal_rngDraws ..)

/-! ### Timers and random draws in one cycle, and the tick (R118, R260) -/

theorem step_timers {s t : State} (h : step s = .next t) : t.dt = s.dt ∧ t.st = s.st := by
  rcases step_cases h with ⟨_, _, rfl⟩ | ⟨_, _, rfl⟩ | ⟨_, _, _, _, _, rfl⟩ | ⟨_, _, _, _, _, hexec⟩
  · exact ⟨rfl, rfl⟩
  · exact ⟨raiseFatal_dt .., raiseFatal_st ..⟩
  · exact ⟨State.advancePc_dt s, State.advancePc_st s⟩
  · simpa using exec_timers hexec

theorem step_rngDraws {s t : State} (h : step s = .next t) :
    t.rngDraws = s.rngDraws ∨
      t.rngDraws = s.rngDraws + 1 ∧
        ∃ w x nn, s.halt = none ∧ fetch s = some w ∧ decode w = .instr (.rndVxNN x nn) := by
  rcases step_cases h with ⟨_, _, rfl⟩ | ⟨_, _, rfl⟩ | ⟨_, _, _, _, _, rfl⟩ | ⟨hrun, w, hfetch, i, hdecode, hexec⟩
  · exact .inl rfl
  · exact .inl (raiseFatal_rngDraws ..)
  · exact .inl (State.advancePc_rngDraws s)
  · rcases exec_rngDraws hexec with hsame | ⟨hone, x, nn, rfl⟩
    · exact .inl hsame
    · exact .inr ⟨hone, w, x, nn, hrun, hfetch, hdecode⟩

/-- A tick is a write of the two timers; while HALT is set, of the values they hold. -/
theorem tick_eq_setTimers (s : State) : ∃ d e, tick s = s.setTimers d e := by
  unfold tick
  cases s.halt with
  | some r => exact ⟨s.dt, s.st, rfl⟩
  | none => exact ⟨_, _, rfl⟩

/-- Settles O11: the timers are in no instruction's frame, RND alone has the draw count in its frame and raises it by
one, and a tick is one write of the timers. -/
theorem cycleKeepsTimersAndDrawsOnlyForRnd : Obligations.CycleKeepsTimersAndDrawsOnlyForRnd := by
  refine ⟨fun s t h => ?_, tick_eq_setTimers⟩
  obtain ⟨hdt, hst⟩ := step_timers h
  exact ⟨hdt, hst, step_rngDraws h⟩

end Sys2Proof.Proofs

namespace Sys2Proof.Proofs

open Sys2Proof Sys2Proof.Machine

/-! ### The host's Load (10_state.md R285, R286) -/

theorem loadResult_of_fits {bytes : List Byte} (h : bytes.length ≤ loadCapacity) : loadResult bytes = .ok :=
  if_neg (Nat.not_lt.2 h)

theorem loadResult_of_tooLong {bytes : List Byte} (h : loadCapacity < bytes.length) :
    loadResult bytes = .capacityError bytes.length := if_pos h

theorem load_of_fits {bytes : List Byte} (h : bytes.length ≤ loadCapacity) (s : State) :
    load bytes s = s.setMem (Memory.writeList s.params s.mem loadBase bytes) := if_neg (Nat.not_lt.2 h)

theorem load_of_tooLong {bytes : List Byte} (h : loadCapacity < bytes.length) (s : State) : load bytes s = s :=
  if_pos h

/-- After a buffer that fits is loaded, each address it covers reads the byte at that offset. -/
theorem byteAt_load {bytes : List Byte} {s : State} (hwf : Memory.wf s.params s.mem)
    (hfits : bytes.length ≤ loadCapacity) {a : Nat} (hlo : loadBase ≤ a) (hhi : a - loadBase < bytes.length) :
    (load bytes s).byteAt a = bytes[a - loadBase] := by
  rw [load_of_fits hfits, State.setMem_byteAt, Memory.read_writeList bytes hwf.1, dif_pos ⟨hlo, hhi⟩]

/-- Settles O49: 3584 bytes, the capacity, cover exactly 0x200 to 0xFFF; 3585 bytes exceed it. -/
theorem loadCapacityBoundary : Obligations.LoadCapacityBoundary := by
  intro bytes s hwf
  refine ⟨fun hlen => ?_, fun hlen => ?_⟩
  · have hfits : bytes.length ≤ loadCapacity := hlen.le
    refine ⟨loadResult_of_fits hfits, fun a hlo hhi => ?_⟩
    have hoff : a - 0x200 < bytes.length := by omega
    rw [byteAt_load hwf hfits hlo hoff, List.getElem?_eq_getElem hoff]
    rfl
  · have hlong : loadCapacity < bytes.length := hlen ▸ (by decide : loadCapacity < 3585)
    exact ⟨hlen ▸ loadResult_of_tooLong hlong, load_of_tooLong hlong s⟩

end Sys2Proof.Proofs

namespace Sys2Proof.Proofs

open Sys2Proof Sys2Proof.Machine

theorem fieldClass_lt (w : Word) : fieldClass w < 16 := by
  rw [fieldClass_eq]; omega

theorem fieldN_lt (w : Word) : fieldN w < 16 := by
  rw [fieldN_eq]; omega

/-! ### Decode after encode (30_encoding.md R90, R91) -/

/-- Decoding an encoded instruction gives it back; each case reads the fields of the format it is encoded in. -/
theorem decode_encode {i : Instr} (hi : WellFormed i) : decode (encode i) = .instr i := by
  cases i with
  | cls => rfl
  | ret => rfl
  | jpAddr nnn | callAddr nnn | ldIAddr nnn | jpV0Addr nnn => simp [encode, decode, wordNNN_fields]
  | seVxNN x nn | sneVxNN x nn | ldVxNN x nn | addVxNN x nn | rndVxNN x nn =>
    simp [encode, decode, wordXNN_fields]
  | seVxVy x y | sneVxVy x y => simp [encode, decode, wordXYN_fields]
  | ldVxVy x y | orVxVy x y | andVxVy x y | xorVxVy x y | addVxVy x y | subVxVy x y | shrVx x y | subnVxVy x y
  | shlVx x y => simp [encode, decode, decodeAlu, wordXYN_fields]
  | drwVxVyN x y n =>
    have hn : n < 16 := of_decide_eq_true hi
    simp [encode, decode, wordXYN_fields, Nat.mod_eq_of_lt hn]

theorem decodeBytes_bytesOfWord (w : Word) : decodeBytes (bytesOfWord w) = decode w :=
  congrArg decode (wordOfBytes_bytes w)

/-- Settles O42: by the format of each instruction's encoding; the bytes in memory order make the word again. -/
theorem decodeOfEncode : Obligations.DecodeOfEncode := fun i hi =>
  ⟨decode_encode hi, (decodeBytes_bytesOfWord (encode i)).trans (decode_encode hi)⟩

/-! ### Encode after decode (R84, R91): the fields of a word make it again -/

theorem wordNNN_of_fields {w : Word} {c : BitVec 4} (hc : fieldClass w = c.toNat) :
    wordNNN c (fieldNNN w) = w := by
  apply BitVec.eq_of_toNat_eq
  rw [wordNNN_toNat, fieldNNN_toNat, ← hc, fieldClass_eq]
  omega

theorem wordXNN_of_fields {w : Word} {c : BitVec 4} (hc : fieldClass w = c.toNat) :
    wordXNN c (fieldX w) (fieldNN w) = w := by
  apply BitVec.eq_of_toNat_eq
  rw [wordXNN_toNat, fieldX_val, fieldNN_toNat, ← hc, fieldClass_eq]
  omega

theorem wordXYN_of_fields {w : Word} {c n : BitVec 4} (hc : fieldClass w = c.toNat) (hn : fieldN w = n.toNat) :
    wordXYN c (fieldX w) (fieldY w) n = w := by
  apply BitVec.eq_of_toNat_eq
  rw [wordXYN_toNat, fieldX_val, fieldY_val, ← hc, ← hn, fieldClass_eq, fieldN_eq]
  omega

theorem wellFormed_of_decodeAlu {x y : Reg} {n : Nat} {i : Instr} (h : decodeAlu x y n = .instr i) : WellFormed i := by
  unfold decodeAlu at h
  split at h <;> cases h <;> rfl

/-- A class 8 word that decodes to an instruction has its sub-operation in the low nibble of that encoding. -/
theorem encode_of_decodeAlu {w : Word} {i : Instr} (hc : fieldClass w = 0x8)
    (h : decodeAlu (fieldX w) (fieldY w) (fieldN w) = .instr i) : encode i = w := by
  unfold decodeAlu at h
  split at h
  case h_10 => cases h
  all_goals
    next hn =>
      cases h
      exact wordXYN_of_fields hc hn

/-- A word that decodes to an instruction is well-formed and its only encoding, class by class. -/
theorem encode_of_decode {w : Word} {i : Instr} (h : decode w = .instr i) : WellFormed i ∧ encode i = w := by
  unfold decode at h
  split at h
  -- class 0: the two words that fix every bit
  case h_1 hc =>
    split at h
    · next hw => cases h; exact ⟨rfl, hw.symm⟩
    · split at h
      · next hw => cases h; exact ⟨rfl, hw.symm⟩
      · cases h
  -- formats NNN and XNN
  case h_2 hc | h_3 hc | h_11 hc | h_12 hc => cases h; exact ⟨rfl, wordNNN_of_fields hc⟩
  case h_4 hc | h_5 hc | h_7 hc | h_8 hc | h_13 hc => cases h; exact ⟨rfl, wordXNN_of_fields hc⟩
  -- classes 5 and 9, whose low nibble is fixed; class 8; DRW; classes E and F
  case h_6 hc | h_10 hc =>
    split at h
    · next hn => cases h; exact ⟨rfl, wordXYN_of_fields hc hn⟩
    · cases h
  case h_9 hc => exact ⟨wellFormed_of_decodeAlu h, encode_of_decodeAlu hc h⟩
  case h_14 hc =>
    cases h
    have hn := fieldN_lt w
    exact ⟨decide_eq_true hn, wordXYN_of_fields hc (by simp [Nat.mod_eq_of_lt hn])⟩
  case h_15 | h_16 => cases h

/-- Settles O43: the fields the decoder reads, put at their places again, are the word. -/
theorem encodeOfDecode : Obligations.EncodeOfDecode := fun _ _ h => encode_of_decode h

/-! ### The opcode table (R90): what each mask looks at -/

@[simp] theorem selects_full (m : String) (p w : Word) :
    (OpcodeRow.mk m p 0xFFFF#16).selects w = decide (w = p) := by
  have hmask : w &&& 0xFFFF#16 = w := BitVec.and_allOnes
  simp [OpcodeRow.selects, hmask, Bool.beq_eq_decide_eq]

@[simp] theorem selects_class (m : String) (p w : Word) :
    (OpcodeRow.mk m p 0xF000#16).selects w = decide (fieldClass w = p.toNat / 4096 ∧ p.toNat % 4096 = 0) := by
  have := w.isLt
  simp only [OpcodeRow.selects, mask_class, Bool.beq_eq_decide_eq, ← BitVec.toNat_inj, BitVec.toNat_ofNat,
    fieldClass_eq, decide_eq_decide]
  omega

@[simp] theorem selects_classLow (m : String) (p w : Word) :
    (OpcodeRow.mk m p 0xF00F#16).selects w =
      decide (fieldClass w = p.toNat / 4096 ∧ fieldN w = p.toNat % 4096) := by
  have := w.isLt
  simp only [OpcodeRow.selects, mask_classLow, Bool.beq_eq_decide_eq, ← BitVec.toNat_inj, BitVec.toNat_ofNat,
    fieldClass_eq, fieldN_eq, decide_eq_decide]
  omega

/-- CLS and RET, the rows that fix the whole word, are of class 0. -/
theorem not_fixed_of_class {w : Word} (hc : fieldClass w ≠ 0) : w ≠ 0x00E0#16 ∧ w ≠ 0x00EE#16 := by
  constructor <;> rintro rfl <;> exact hc (by decide)

/-- The rows a decoded word should select: the one of its instruction. -/
@[simp] def rowsOfDecoded : Decoded → List OpcodeRow
  | .instr i => [opcodeRow i]
  | .unknown _ => []

/-- Class 8: each value of the low nibble selects the row of the operation it stands for. -/
theorem selectedRows_of_class8 {w : Word} (hc : fieldClass w = 0x8) :
    opcodeTable.filter (fun r => r.selects w) = rowsOfDecoded (decodeAlu (fieldX w) (fieldY w) (fieldN w)) := by
  obtain ⟨hcls, hret⟩ := not_fixed_of_class (w := w) (by omega)
  rcases index_cases (fieldN_lt w) with hn | hn | hn | hn | hn | hn | hn | hn | hn | hn | hn | hn | hn | hn | hn | hn <;>
    simp [hc, hn, hcls, hret, opcodeTable, opcodeRow, decodeAlu]

/-- The rows any word selects are the row of its instruction, or none. -/
theorem selectedRows_eq (w : Word) : opcodeTable.filter (fun r => r.selects w) = rowsOfDecoded (decode w) := by
  fun_cases decode w
  -- class 0: CLS, RET, unknown
  case case1 hw | case2 hw => subst hw; decide
  case case3 hc hcls hret => simp [hc, hcls, hret, opcodeTable, opcodeRow]
  -- classes 5 and 9, by their low nibble; class 8; class F
  case case8 hc hn | case9 hc hn | case13 hc hn | case14 hc hn =>
    obtain ⟨hcls, hret⟩ := not_fixed_of_class (w := w) (by omega)
    simp [hc, hn, hcls, hret, opcodeTable, opcodeRow]
  case case12 hc => exact selectedRows_of_class8 hc
  case case20 =>
    have hc : fieldClass w = 0xF := by
      have := fieldClass_lt w
      simp only [imp_false] at *
      omega
    obtain ⟨hcls, hret⟩ := not_fixed_of_class (w := w) (by omega)
    simp [hc, hcls, hret, opcodeTable, opcodeRow]
  -- the other classes, with no condition on the low nibble
  all_goals
    next hc =>
      obtain ⟨hcls, hret⟩ := not_fixed_of_class (w := w) (by omega)
      simp [hc, hcls, hret, opcodeTable, opcodeRow]

/-- Settles O44: by the class of the word, and in class 8 by its low nibble. -/
theorem decodeAgreesWithTheTable : Obligations.DecodeAgreesWithTheTable := by
  intro w
  rw [selectedRows_eq]
  cases decode w <;> rfl

/-! ### The unknown words (R95) -/

/-- The word is unknown for the reason `why`, as R95's table has it. -/
def InUnknownSpace (w : Word) : Unknown → Prop
  | .class0 => fieldClass w = 0x0 ∧ w ≠ 0x00E0#16 ∧ w ≠ 0x00EE#16
  | .seLowNibble => fieldClass w = 0x5 ∧ fieldN w ≠ 0
  | .aluSubOp => fieldClass w = 0x8 ∧ 8 ≤ fieldN w ∧ fieldN w ≠ 0xE
  | .sneLowNibble => fieldClass w = 0x9 ∧ fieldN w ≠ 0
  | .classE => fieldClass w = 0xE
  | .classF => fieldClass w = 0xF
  | .tooShort => False

/-- Class 8: the low nibbles that select no operation are 8 to D, and F. -/
theorem decodeAlu_eq_unknown_iff (x y : Reg) {n : Nat} (hn : n < 16) (why : Unknown) :
    decodeAlu x y n = .unknown why ↔ why = .aluSubOp ∧ 8 ≤ n ∧ n ≠ 0xE := by
  rcases index_cases hn with rfl | rfl | rfl | rfl | rfl | rfl | rfl | rfl | rfl | rfl | rfl | rfl | rfl | rfl | rfl |
    rfl <;>
    simp [decodeAlu, eq_comm]

/-- A word is unknown for a reason exactly when it lies in that reason's space. -/
theorem decode_eq_unknown_iff (w : Word) (why : Unknown) : decode w = .unknown why ↔ InUnknownSpace w why := by
  fun_cases decode w
  -- class 0: CLS, RET, unknown
  case case1 hw | case2 hw => subst hw; cases why <;> simp [InUnknownSpace] <;> decide
  case case3 hc hcls hret => cases why <;> simp [InUnknownSpace, hc, hcls, hret]
  -- classes 5 and 9, by their low nibble; class 8; class F
  case case8 hc hn | case9 hc hn | case13 hc hn | case14 hc hn => cases why <;> simp [InUnknownSpace, hc, hn]
  case case12 hc =>
    rw [decodeAlu_eq_unknown_iff _ _ (fieldN_lt w)]
    cases why <;> simp [InUnknownSpace, hc]
  case case20 =>
    have hc : fieldClass w = 0xF := by
      have := fieldClass_lt w
      simp only [imp_false] at *
      omega
    cases why <;> simp [InUnknownSpace, hc]
  -- the other classes, with no condition on the low nibble
  all_goals
    next hc => cases why <;> simp [InUnknownSpace, hc]

/-- Settles O45: the six spaces, and that no word is called too short, are one equivalence at the seven reasons. -/
theorem unknownSpacesAreExact : Obligations.UnknownSpacesAreExact := by
  intro w
  rw [← fieldClass_eq, ← fieldN_eq]
  exact ⟨decode_eq_unknown_iff w _, decode_eq_unknown_iff w _, decode_eq_unknown_iff w _, decode_eq_unknown_iff w _,
    decode_eq_unknown_iff w _, decode_eq_unknown_iff w _, (decode_eq_unknown_iff w .tooShort).1⟩

/-- Settles O46: the decoder computes on each word. -/
theorem sampleWordsDecode : Obligations.SampleWordsDecode := by
  refine ⟨?_, ?_, ?_, ?_, ?_, ?_, ?_, ?_⟩ <;> decide

end Sys2Proof.Proofs

namespace Sys2Proof.Proofs

open Sys2Proof Sys2Proof.Machine

/-! ### The three instructions that can raise, where they complete -/

theorem exec_callAddr_of_push {nnn : Addr} {s u : State} (h : s.push s.pc = some u) :
    exec (.callAddr nnn) s = .next (u.setPc (opAddr nnn)) := by
  simp [exec, execCallAddr, h]

theorem exec_ret_of_pop {s u : State} {target : Word} (h : s.pop = some (target, u)) :
    exec .ret s = .next (u.setPc target) := by
  simp [exec, execRet, h]

theorem exec_drwVxVyN_of_sprite {x y : Reg} {n : Nat} {s : State} {rows : List Byte} (h : opSprite s n = some rows) :
    exec (.drwVxVyN x y n) s =
      .next (((s.setPix (drawRows (opColumn s x) (opRow s y) rows (s.pix, false)).1).setReg regF
        (flagByte (drawRows (opColumn s x) (opRow s y) rows (s.pix, false)).2)).setDirty true) := by
  simp [exec, execDrwVxVyN, h]

/-! ### An instruction's own error (60_exceptions.md R245, R247) -/

theorem ownError_callAddr_iff (nnn : Addr) (s : State) (k : FatalKind) :
    ownError (.callAddr nnn) s = some k ↔ s.sp.val = 16 ∧ k = .stackOverflow := by
  simp [ownError, eq_comm]

theorem ownError_ret_iff (s : State) (k : FatalKind) :
    ownError .ret s = some k ↔ s.sp.val = 0 ∧ k = .stackUnderflow := by
  simp only [ownError, Option.ite_none_right_eq_some, Option.some.injEq, eq_comm (a := k)]

/-- DRW raises its error exactly when its sprite cannot be read (R222). -/
theorem ownError_drwVxVyN_iff (x y : Reg) (n : Nat) (s : State) (k : FatalKind) :
    ownError (.drwVxVyN x y n) s = some k ↔ opSprite s n = none ∧ k = .addressFault := by
  simp only [ownError, Option.ite_none_right_eq_some, Option.some.injEq, List.mem_range, opSprite,
    State.memReadList_eq_none_iff, eq_comm (a := k)]

/-- An instruction that raises an error of its own does nothing but raise it. -/
theorem exec_of_ownError {i : Instr} {s : State} {k : FatalKind} (h : ownError i s = some k) :
    exec i s = .next (raiseFatal k s.ia s) := by
  cases i
  case callAddr nnn =>
    obtain ⟨hsp, rfl⟩ := (ownError_callAddr_iff nnn s k).1 h
    simp [exec, execCallAddr, State.push_of_full s s.pc hsp]
  case ret =>
    obtain ⟨hsp, rfl⟩ := (ownError_ret_iff s k).1 h
    simp [exec, execRet, State.pop_of_zero s hsp]
  case drwVxVyN x y n =>
    obtain ⟨hsprite, rfl⟩ := (ownError_drwVxVyN_iff x y n s k).1 h
    simp [exec, execDrwVxVyN, hsprite]
  all_goals cases h

/-- Settles O9: CALL's push, RET's pop and DRW's sprite are refused, which each arm answers by raising at PC - 2. -/
theorem ownErrorWritesOnlyHalt : Obligations.OwnErrorWritesOnlyHalt := fun _ _ _ h => exec_of_ownError h

theorem ownError_callAddr_eq_none_iff (nnn : Addr) (s : State) :
    ownError (.callAddr nnn) s = none ↔ s.sp.val < 16 := by
  have := s.sp.isLt
  simp only [ownError, ite_eq_right_iff, reduceCtorEq, imp_false]
  omega

theorem ownError_ret_eq_none_iff (s : State) : ownError .ret s = none ↔ 0 < s.sp.val := by
  simp [ownError, Nat.pos_iff_ne_zero]

theorem ownError_drwVxVyN_eq_none_iff (x y : Reg) (n : Nat) (s : State) :
    ownError (.drwVxVyN x y n) s = none ↔ ∃ rows, opSprite s n = some rows := by
  simp only [ownError, ite_eq_right_iff, reduceCtorEq, imp_false, List.mem_range, opSprite,
    ← State.memReadList_eq_none_iff, ← Option.ne_none_iff_exists', ne_eq]

theorem writeFlagResult_halt (x : Reg) (flag : Bool) (result : Byte) (s : State) :
    (writeFlagResult x flag result s).halt = s.halt :=
  (writeFlagResult_onlyWrites x flag result s).halt (by simp)

theorem skipIf_halt (c : Bool) (s : State) : (skipIf c s).halt = s.halt :=
  (skipIf_onlyWrites c s).halt (by simp)

/-- An instruction with no error of its own leaves HALT alone. -/
theorem exec_halt_of_no_ownError {i : Instr} {s t : State} (hown : ownError i s = none) (h : exec i s = .next t) :
    t.halt = s.halt := by
  cases i with
  | seVxNN | sneVxNN | seVxVy | sneVxVy => cases h; exact skipIf_halt ..
  | addVxVy | subVxVy | shrVx | subnVxVy | shlVx => cases h; exact writeFlagResult_halt ..
  | callAddr nnn =>
    have hsp := (ownError_callAddr_eq_none_iff nnn s).1 hown
    rw [exec_callAddr_of_push (State.push_of_lt s s.pc hsp)] at h
    cases h
    rfl
  | ret =>
    have hsp := (ownError_ret_eq_none_iff s).1 hown
    rw [exec_ret_of_pop (State.pop_of_pos s hsp)] at h
    cases h
    rfl
  | drwVxVyN x y n =>
    obtain ⟨rows, hrows⟩ := (ownError_drwVxVyN_eq_none_iff x y n s).1 hown
    rw [exec_drwVxVyN_of_sprite hrows] at h
    cases h
    rfl
  | _ => cases h; rfl

/-- Setting HALT to what it holds is no write. -/
theorem setHalt_same (s : State) : s.setHalt s.halt = s := rfl

/-- Everything an instruction can do, and when: it has no error of its own and writes only the parts its rule lists, or
it raises its own error and writes only HALT. -/
theorem exec_cases {i : Instr} {s t : State} (h : exec i s = .next t) :
    (ownError i s = none ∧ OnlyWrites (partsWritten i) s t) ∨
      ∃ k, ownError i s = some k ∧ t = raiseFatal k s.ia s := by
  cases hown : ownError i s with
  | some k =>
    rw [exec_of_ownError hown] at h
    cases h
    exact .inr ⟨k, rfl, rfl⟩
  | none =>
    have hhalt := exec_halt_of_no_ownError hown h
    rcases completesOrRaises_of_exec h with hw | ⟨k, rfl⟩
    · exact .inl ⟨rfl, hw⟩
    · rw [raiseFatal_halt] at hhalt
      rw [raiseFatal, hhalt, setHalt_same]
      exact .inl ⟨rfl, .refl _ s⟩

/-- Settles O10: every instruction answers, and without an error of its own it answers within its frame. -/
theorem frameOfEveryInstruction : Obligations.FrameOfEveryInstruction := by
  intro i s hown
  obtain ⟨t, ht, -⟩ := exec_completesOrRaises i s
  rcases exec_cases ht with ⟨-, hw⟩ | ⟨k, hk, -⟩
  · exact ⟨t, ht, hw⟩
  · rw [hown] at hk
    cases hk

end Sys2Proof.Proofs

namespace Sys2Proof.Proofs

open Sys2Proof Sys2Proof.Machine

/-! ### One cycle and its outcome, case by case (40_engine.md R110, R114) -/

theorem step_of_halted {s : State} {h : HaltRecord} (hh : s.halt = some h) : step s = .next s := by
  simp [step, cycle, hh]

theorem step_of_fetchFault {s : State} (hh : s.halt = none) (hf : fetch s = none) :
    step s = .next (raiseFatal .addressFault s.pc s) := by
  simp [step, cycle, hh, hf]

theorem step_of_unknown {s : State} {w : Word} {why : Unknown} (hh : s.halt = none) (hf : fetch s = some w)
    (hd : decode w = .unknown why) : step s = .next s.advancePc := by
  simp [step, cycle, hh, hf, hd]

theorem step_of_instr {s : State} {w : Word} {i : Instr} (hh : s.halt = none) (hf : fetch s = some w)
    (hd : decode w = .instr i) : step s = exec i s.advancePc := by
  simp [step, cycle, hh, hf, hd]

theorem cycleOutcome_of_halted {s : State} {h : HaltRecord} (hh : s.halt = some h) :
    cycleOutcome s = some .halted := by
  simp [cycleOutcome, hh]

theorem cycleOutcome_of_fetchFault {s : State} (hh : s.halt = none) (hf : fetch s = none) :
    cycleOutcome s = some (.fatal ⟨.addressFault, s.pc⟩) := by
  simp [cycleOutcome, hh, hf]

theorem cycleOutcome_of_unknown {s : State} {w : Word} {why : Unknown} (hh : s.halt = none) (hf : fetch s = some w)
    (hd : decode w = .unknown why) : cycleOutcome s = some (.reported w s.pc) := by
  simp [cycleOutcome, hh, hf, hd]

theorem cycleOutcome_of_instr {s : State} {w : Word} {i : Instr} (hh : s.halt = none) (hf : fetch s = some w)
    (hd : decode w = .instr i) : cycleOutcome s = outcomeOfExec (exec i s.advancePc) := by
  simp [cycleOutcome, hh, hf, hd]

theorem tick_of_halted {s : State} {h : HaltRecord} (hh : s.halt = some h) : tick s = s := by
  simp [tick, hh]

theorem outcomeOfExec_next_eq_fatal_iff (t : State) (h : HaltRecord) :
    outcomeOfExec (.next t) = some (.fatal h) ↔ t.halt = some h := by
  cases hh : t.halt <;> simp [outcomeOfExec, hh]

theorem outcomeOfExec_next_of_running {t : State} (ht : t.halt = none) : outcomeOfExec (.next t) = some .ok := by
  simp [outcomeOfExec, ht]

/-! ### Statements about the cycle -/

/-- A step answers a next state from every state. -/
theorem step_next (s : State) : ∃ t, step s = .next t := by
  cases hh : s.halt with
  | some h => exact ⟨_, step_of_halted hh⟩
  | none =>
    cases hf : fetch s with
    | none => exact ⟨_, step_of_fetchFault hh hf⟩
    | some w =>
      cases hd : decode w with
      | unknown why => exact ⟨_, step_of_unknown hh hf hd⟩
      | instr i =>
        rw [step_of_instr hh hf hd]
        exact (exec_completesOrRaises i s.advancePc).imp fun _ ht => ht.1

/-- Settles O8: of the host's operations only the cycle could fail to answer, and a step never does. -/
theorem everyOperationAnswersANextState : Obligations.EveryOperationAnswersANextState := by
  refine ⟨fun i s => (exec_completesOrRaises i s).imp fun _ ht => ht.1, fun op s => ?_⟩
  by_cases hop : op = .cycle
  · subst hop
    exact step_next s
  · exact hostStep_next_of_ne_cycle hop s

/-- A running state's outcome is FATAL with the record the step leaves in HALT, case by case of the cycle. -/
theorem cycleOutcome_eq_fatal_iff {s t : State} (h : HaltRecord) (hh : s.halt = none) (ht : step s = .next t) :
    cycleOutcome s = some (.fatal h) ↔ t.halt = some h := by
  rcases step_cases ht with ⟨r, hr, rfl⟩ | ⟨-, hf, rfl⟩ | ⟨-, w, hf, why, hd, rfl⟩ | ⟨-, w, hf, i, hd, he⟩
  · simp [hh] at hr
  · simp [cycleOutcome_of_fetchFault hh hf]
  · simp [cycleOutcome_of_unknown hh hf hd, hh]
  · rw [cycleOutcome_of_instr hh hf hd, he, outcomeOfExec_next_eq_fatal_iff]

/-- Settles O7: the step answers one next state, and the outcome is read from its HALT. -/
theorem fatalOutcomeIsTheHaltRecord : Obligations.FatalOutcomeIsTheHaltRecord := by
  intro s h hh
  obtain ⟨t, ht⟩ := step_next s
  rw [cycleOutcome_eq_fatal_iff h hh ht, ht]
  simp

/-- Settles O4: cycle, outcome and tick each look at HALT first. -/
theorem haltedCycleAndTickChangeNothing : Obligations.HaltedCycleAndTickChangeNothing := fun _ _ hh =>
  ⟨step_of_halted hh, cycleOutcome_of_halted hh, tick_of_halted hh⟩

/-- Settles O5: such a fetch raises, and the cycle then runs nothing. -/
theorem fetchFaultHaltsBeforeTheAdvance : Obligations.FetchFaultHaltsBeforeTheAdvance := by
  intro s hh hp hpc
  have hf : fetch s = none := (fetch_eq_none_iff s).2 ⟨hp, hpc⟩
  exact ⟨step_of_fetchFault hh hf, cycleOutcome_of_fetchFault hh hf⟩

/-- Settles O3: the advance is all an unknown word does. -/
theorem unknownWordOnlyAdvancesPc : Obligations.UnknownWordOnlyAdvancesPc := fun _ _ _ hh hf hd =>
  ⟨step_of_unknown hh hf hd, cycleOutcome_of_unknown hh hf hd⟩

/-- Settles O1: the two bytes are the fetched word. -/
theorem stepRunsTheDecodedInstruction : Obligations.StepRunsTheDecodedInstruction := by
  intro s hi lo i hh hhi hlo hd
  have hf : fetch s = some (wordOfBytes hi lo) := by simp [fetch, hhi, hlo]
  exact step_of_instr hh hf hd

/-- Settles O6: neither address raises, and the first byte is the word's high half. -/
theorem fetchIsBigEndian : Obligations.FetchIsBigEndian := fun s hs =>
  ⟨_, fetch_of_ok s hs, wordOfBytes_toNat _ _⟩

/-- Settles O12: JP sets PC back to the address it was fetched from, which undoes the advance. -/
theorem parkIsAFixedPoint : Obligations.ParkIsAFixedPoint := by
  intro s a hh hpc hf
  have hd : decode (wordNNN 0x1#4 a) = .instr (.jpAddr a) := decode_encode (i := .jpAddr a) rfl
  have ha : opAddr a = s.pc := BitVec.eq_of_toNat_eq ((opAddr_toNat a).trans hpc.symm)
  have he : exec (.jpAddr a) s.advancePc = .next s := by
    simp [exec, execJpAddr, ha, State.advancePc]
  rw [step_of_instr hh hf hd, cycleOutcome_of_instr hh hf hd, he]
  exact ⟨rfl, outcomeOfExec_next_of_running hh⟩

end Sys2Proof.Proofs

namespace Sys2Proof.Proofs

open Sys2Proof Sys2Proof.Machine

/-! ### Control transfer (41_control_transfer.md) -/

/-- Settles O16: the target is the 12-bit address, extended. -/
theorem jpSetsPc : Obligations.JpSetsPc := fun nnn s =>
  ⟨s.setPc (opAddr nnn), rfl, opAddr_toNat nnn, setPc_onlyWrites s _⟩

/-- Settles O17: the sum of 12 and 8 bits fits in 16. -/
theorem jpV0AddsInFull : Obligations.JpV0AddsInFull := fun nnn s =>
  ⟨s.setPc (opAddrPlusV0 s nnn), rfl, opAddrPlusV0_toNat s nnn, setPc_onlyWrites s _⟩

/-- Settles O18: a push with room, then the jump. -/
theorem callPushesThePc : Obligations.CallPushesThePc := by
  intro nnn s hsp
  have hpush := State.push_of_lt s s.pc hsp
  refine ⟨_, exec_callAddr_of_push hpush, opAddr_toNat nnn, rfl, ?_, fun k hk => ?_,
    ((push_onlyWrites hpush).append (setPc_onlyWrites _ _)).mono (by simp)⟩
  · simp
  · simp [Vector.getElem?_set_ne hsp (Ne.symm hk)]

/-- Settles O19: the overflow is CALL's own error. -/
theorem callOverflowHalts : Obligations.CallOverflowHalts := fun nnn s hsp =>
  exec_of_ownError ((ownError_callAddr_iff nnn s _).2 ⟨hsp, rfl⟩)

/-- Settles O20: a pop of a pending entry, then the jump to it. -/
theorem retPopsThePc : Obligations.RetPopsThePc := by
  intro s hsp
  have hpop := State.pop_of_pos s hsp
  refine ⟨_, exec_ret_of_pop hpop, ?_, ?_, ((pop_onlyWrites hpop).append (setPc_onlyWrites _ _)).mono (by simp)⟩
  · exact Vector.getElem?_eq_getElem _
  · exact Nat.sub_add_cancel hsp

/-- Settles O21: the underflow is RET's own error. -/
theorem retUnderflowHalts : Obligations.RetUnderflowHalts := fun s hsp =>
  exec_of_ownError ((ownError_ret_iff s _).2 ⟨hsp, rfl⟩)

/-! ### Nested calls and returns -/

theorem execAll_cons_of_next {i : Instr} {s t : State} (h : exec i s = .next t) (rest : List Instr) :
    execAll (i :: rest) s = execAll rest t := by
  simp [execAll, h]

theorem execAll_append_of_next {is : List Instr} {s t : State} (h : execAll is s = .next t) (rest : List Instr) :
    execAll (is ++ rest) s = execAll rest t := by
  induction is generalizing s with
  | nil => cases h; rfl
  | cons i is ih =>
    obtain ⟨u, hu, -⟩ := exec_completesOrRaises i s
    rw [execAll_cons_of_next hu] at h
    rw [List.cons_append, execAll_cons_of_next hu, ih h]

/-- A frame that names PC, SP and the stack names the stack alone where PC and SP are as before. -/
theorem onlyWrites_stack_of {s t : State} (hw : OnlyWrites [.pc, .sp, .stack] s t) (hpc : t.pc = s.pc)
    (hsp : t.sp = s.sp) : OnlyWrites [.stack] s t where
  reg x _ := hw.reg x (by simp)
  i _ := hw.i (by simp)
  pc _ := hpc
  sp _ := hsp
  stack h := absurd (List.mem_singleton.2 rfl) h
  pix _ := hw.pix (by simp)
  dirty _ := hw.dirty (by simp)
  halt _ := hw.halt (by simp)
  rng _ := hw.rng (by simp)
  dt := hw.dt
  st := hw.st
  key := hw.key
  params := hw.params
  mem := hw.mem
  byteAt := hw.byteAt

/-- Settles O22: by induction on the targets; the last return pops what the first call pushed, which the nest between
them, above it on the stack, leaves alone. -/
theorem nestedCallsReturn : Obligations.NestedCallsReturn := by
  intro targets
  induction targets with
  | nil => exact fun s _ => ⟨s, rfl, rfl, rfl, fun _ _ => rfl, .refl _ s⟩
  | cons nnn targets ih =>
    intro s hroom
    rw [List.length_cons] at hroom
    obtain ⟨u, hcall, -, husp, hpushed, hothers, huw⟩ := callPushesThePc nnn s (by omega)
    obtain ⟨v, hnest, -, hvsp, hbelow, hvw⟩ := ih u (by omega)
    have hvsp' : v.sp.val = s.sp.val + 1 := by rw [hvsp, husp]
    obtain ⟨t, hret, hpopped, htsp, htw⟩ := retPopsThePc v (by omega)
    have hpc : t.pc = s.pc := by
      rw [hvsp', Nat.add_sub_cancel, hbelow _ (by omega), hpushed] at hpopped
      exact (Option.some.inj hpopped).symm
    have hsp : t.sp = s.sp := Fin.ext (by omega)
    have hstack : ∀ k : Nat, k < s.sp.val → t.stack[k]? = s.stack[k]? := fun k hk => by
      rw [htw.stack (by simp), hbelow k (by omega), hothers k (by omega)]
    have hw : OnlyWrites [.pc, .sp, .stack] s t :=
      huw.trans ((hvw.mono (by simp)).trans (htw.mono (by simp)))
    refine ⟨t, ?_, hpc, hsp, hstack, onlyWrites_stack_of hw hpc hsp⟩
    rw [List.length_cons, List.replicate_succ', List.map_cons, List.cons_append, execAll_cons_of_next hcall,
      ← List.append_assoc, execAll_append_of_next hnest, execAll_cons_of_next hret]
    rfl

/-- Settles O23: by induction on the targets; the last one finds the stack full. -/
theorem seventeenthCallOverflows : Obligations.SeventeenthCallOverflows := by
  intro targets
  induction targets with
  | nil => intro s _ hlen; have := s.sp.isLt; simp only [List.length_nil] at hlen; omega
  | cons nnn targets ih =>
    intro s hrun hlen
    rw [List.length_cons] at hlen
    rw [List.map_cons]
    by_cases hfull : s.sp.val = 16
    · obtain rfl : targets = [] := List.length_eq_zero_iff.1 (by omega)
      exact ⟨_, execAll_cons_of_next (callOverflowHalts nnn s hfull) [], rfl, hfull⟩
    · obtain ⟨u, hcall, -, husp, -, -, huw⟩ := callPushesThePc nnn s (by have := s.sp.isLt; omega)
      rw [execAll_cons_of_next hcall]
      exact ih u ((huw.halt (by simp)).trans hrun) (by omega)

/-! ### Skips (42_conditional_skip.md) -/

/-- PC after a skip, mod 2^16 (R150). -/
theorem skipIf_pc_toNat (c : Bool) (s : State) :
    (skipIf c s).pc.toNat = (s.pc.toNat + if c then 2 else 0) % 65536 := by
  have := s.pc.isLt
  cases c with
  | true => simp [skipIf_true, BitVec.toNat_add]
  | false => simp [skipIf_false]; omega

/-- Settles O24: SE's predicate is equality, SNE's its negation. -/
theorem immediateSkips : Obligations.ImmediateSkips := fun x nn s =>
  ⟨⟨_, rfl, skipIf_onlyWrites _ s, by simp [skipIf_pc_toNat, opReg, opByte]⟩,
    ⟨_, rfl, skipIf_onlyWrites _ s, by simp [skipIf_pc_toNat, opReg, opByte]⟩⟩

/-- Settles O25: as O24, with the operand VY. -/
theorem registerSkips : Obligations.RegisterSkips := fun x y s =>
  ⟨⟨_, rfl, skipIf_onlyWrites _ s, by simp [skipIf_pc_toNat, opReg]⟩,
    ⟨_, rfl, skipIf_onlyWrites _ s, by simp [skipIf_pc_toNat, opReg]⟩⟩

/-! ### The advance before dispatch (40_engine.md R112) -/

/-- What a skip adds to the advanced PC, counted from the PC before the advance. -/
theorem pc_after_advance {s u : State} {c : Prop} [Decidable c] {a b : Nat}
    (h : u.pc.toNat = (s.advancePc.pc.toNat + if c then a else b) % 65536) :
    u.pc.toNat = (s.pc.toNat + if c then a + 2 else b + 2) % 65536 := by
  rw [h, State.advancePc_toNat]
  split <;> omega

/-- Settles O2: each clause is the decoded instruction's own statement, on the state with PC advanced. -/
theorem fetchAdvancesPcBeforeDispatch : Obligations.FetchAdvancesPcBeforeDispatch := by
  intro s w hrun hf
  have hpc := State.advancePc_toNat s
  have hstep : ∀ {i}, decode w = .instr i → step s = exec i s.advancePc := fun hd => step_of_instr hrun hf hd
  refine ⟨s.advancePc, hpc, rfl, fun why hd => step_of_unknown hrun hf hd, fun i hd => hstep hd, fun nnn hd => ?_,
    fun nnn hd hsp => ?_, fun nnn hd => ?_, fun hd hsp => ?_, fun x nn hd => ?_, fun x nn hd => ?_, fun x y hd => ?_,
    fun x y hd => ?_⟩
  all_goals rw [hstep hd]
  · obtain ⟨u, hu, hupc, -⟩ := jpSetsPc nnn s.advancePc
    exact ⟨u, hu, hupc⟩
  · obtain ⟨u, hu, hupc, -⟩ := callPushesThePc nnn s.advancePc hsp
    exact ⟨u, hu, hupc⟩
  · obtain ⟨u, hu, hupc, -⟩ := jpV0AddsInFull nnn s.advancePc
    exact ⟨u, hu, hupc⟩
  · obtain ⟨u, hu, hupc, -⟩ := retPopsThePc s.advancePc hsp
    exact ⟨u, hu, hupc⟩
  · obtain ⟨u, hu, -, hupc⟩ := (immediateSkips x nn s.advancePc).1
    exact ⟨u, hu, pc_after_advance hupc⟩
  · obtain ⟨u, hu, -, hupc⟩ := (immediateSkips x nn s.advancePc).2
    exact ⟨u, hu, pc_after_advance hupc⟩
  · obtain ⟨u, hu, -, hupc⟩ := (registerSkips x y s.advancePc).1
    exact ⟨u, hu, pc_after_advance hupc⟩
  · obtain ⟨u, hu, -, hupc⟩ := (registerSkips x y s.advancePc).2
    exact ⟨u, hu, pc_after_advance hupc⟩

end Sys2Proof.Proofs

namespace Sys2Proof.Proofs

open Sys2Proof Sys2Proof.Machine

/-! ### The register file and the ALU (43_register_alu.md) -/

/-- Settles O26: LD is one register write. -/
theorem loadsSetOneRegister : Obligations.LoadsSetOneRegister :=
  ⟨fun x _ s => ⟨_, rfl, State.setReg_reg_same s x _, setReg_onlyWrites s x _⟩,
    fun x _ s => ⟨_, rfl, State.setReg_reg_same s x _, setReg_onlyWrites s x _⟩⟩

/-- Settles O27: one register write, of the sum mod 256. -/
theorem addImmediateWrapsWithoutFlag : Obligations.AddImmediateWrapsWithoutFlag := by
  intro x nn s
  refine ⟨_, rfl, ?_, setReg_onlyWrites s x _⟩
  rw [State.setReg_reg_same, sumByte_toNat]
  rfl

/-- Settles O28: one register write, of a bitwise operation. -/
theorem bitwiseCombineEveryBit : Obligations.BitwiseCombineEveryBit := by
  intro x y s
  refine ⟨⟨_, rfl, setReg_onlyWrites s x _, fun k => ?_⟩, ⟨_, rfl, setReg_onlyWrites s x _, fun k => ?_⟩,
    ⟨_, rfl, setReg_onlyWrites s x _, fun k => ?_⟩⟩
  · rw [State.setReg_reg_same]; exact BitVec.getLsbD_or
  · rw [State.setReg_reg_same]; exact BitVec.getLsbD_and
  · rw [State.setReg_reg_same]; exact BitVec.getLsbD_xor

/-- Settles O29: write_fr of the carry and the sum. -/
theorem addRegistersWithCarry : Obligations.AddRegistersWithCarry := fun x _ s =>
  ⟨_, rfl, writeFlagResult_onlyWrites x _ _ s,
    writeFlagResult_flagAndResult (carryFlag_iff _ _) (sumByte_toNat _ _)⟩

/-- Settles O30: write_fr of no borrow and the difference VX - VY. -/
theorem subRegistersWithNoBorrow : Obligations.SubRegistersWithNoBorrow := fun x _ s =>
  ⟨_, rfl, writeFlagResult_onlyWrites x _ _ s,
    writeFlagResult_flagAndResult (noBorrowFlag_iff _ _) (diffByte_toNat _ _)⟩

/-- Settles O31: write_fr of no borrow and the difference VY - VX. -/
theorem subnRegistersWithNoBorrow : Obligations.SubnRegistersWithNoBorrow := fun x _ s =>
  ⟨_, rfl, writeFlagResult_onlyWrites x _ _ s,
    writeFlagResult_flagAndResult (noBorrowFlag_iff _ _) (diffByte_toNat _ _)⟩

theorem lowBit_iff (a : Byte) : lowBit a = true ↔ a.toNat % 2 = 1 := by
  simp [lowBit, BitVec.getLsbD, Nat.testBit_zero]

theorem highBit_iff (a : Byte) : highBit a = true ↔ 128 ≤ a.toNat := by
  have := a.isLt
  simp [highBit, BitVec.getLsbD, Nat.testBit_eq_decide_div_mod_eq]
  omega

/-- Settles O32: write_fr of bit 0 and the half. -/
theorem shiftRightKeepsTheDroppedBit : Obligations.ShiftRightKeepsTheDroppedBit := fun x _ s =>
  ⟨_, rfl, writeFlagResult_onlyWrites x _ _ s, writeFlagResult_flagAndResult (lowBit_iff _) (shrByte_toNat _)⟩

/-- Settles O33: write_fr of bit 7 and the double mod 256. -/
theorem shiftLeftKeepsTheDroppedBit : Obligations.ShiftLeftKeepsTheDroppedBit := fun x _ s =>
  ⟨_, rfl, writeFlagResult_onlyWrites x _ _ s, writeFlagResult_flagAndResult (highBit_iff _) (shlByte_toNat _)⟩

/-- Settles O34: I takes the 12-bit address, extended. -/
theorem ldISetsTheIndex : Obligations.LdISetsTheIndex := fun nnn s =>
  ⟨s.setI (opAddr nnn), rfl, opAddr_toNat nnn, setI_onlyWrites s _⟩

/-- Settles O35: one draw, then one register write of the byte AND NN. -/
theorem rndMasksOneDraw : Obligations.RndMasksOneDraw := by
  intro x nn s
  refine ⟨_, rfl, ((drawRng_onlyWrites s).append (setReg_onlyWrites _ x _)).mono (by simp), rfl, fun k => ?_⟩
  rw [State.setReg_reg_same, State.drawRng_byte, BitVec.getLsbD_and]
  cases h : nn.getLsbD k <;> simp [opByte, h]

end Sys2Proof.Proofs

namespace Sys2Proof.Proofs

open Sys2Proof Sys2Proof.Machine

/-! ### What an instruction and a cycle do not read (R32, R197, R263) -/

/-- The state with other keys, other timers and another draw count. -/
def withInputs (k : Vector Bool 16) (d e : Byte) (n : Nat) (s : State) : State :=
  { s with key := k, dt := d, st := e, rngDraws := n }

section

variable (k : Vector Bool 16) (d e : Byte) (n : Nat)

theorem push_withInputs (s : State) :
    (withInputs k d e n s).push (withInputs k d e n s).pc = (s.push s.pc).map (withInputs k d e n) := by
  by_cases h : s.sp.val < 16
  · rw [State.push_of_lt s _ h, State.push_of_lt (withInputs k d e n s) _ h]; rfl
  · have hfull : s.sp.val = 16 := by have := s.sp.isLt; omega
    rw [State.push_of_full s _ hfull, State.push_of_full (withInputs k d e n s) _ hfull]; rfl

theorem pop_withInputs (s : State) :
    (withInputs k d e n s).pop = s.pop.map (Prod.map id (withInputs k d e n)) := by
  by_cases h : 0 < s.sp.val
  · rw [State.pop_of_pos s h, State.pop_of_pos (withInputs k d e n s) h]; rfl
  · have hzero : s.sp.val = 0 := by omega
    rw [State.pop_of_zero s hzero, State.pop_of_zero (withInputs k d e n s) hzero]; rfl

theorem skipIf_withInputs (c : Bool) (s : State) :
    skipIf c (withInputs k d e n s) = withInputs k d e n (skipIf c s) := by
  cases c <;> rfl

theorem writeFlagResult_withInputs (x : Reg) (flag : Bool) (result : Byte) (s : State) :
    writeFlagResult x flag result (withInputs k d e n s) =
      withInputs k d e n (writeFlagResult x flag result s) := by
  by_cases hx : x = regF
  · subst hx
    rw [writeFlagResult_regF, writeFlagResult_regF]
    rfl
  · rw [writeFlagResult_other hx, writeFlagResult_other hx]
    rfl

theorem opSprite_withInputs (s : State) (rows : Nat) : opSprite (withInputs k d e n s) rows = opSprite s rows :=
  State.memReadList_congr (s := s) (t := withInputs k d e n s) rfl rfl rows s.i.toNat

/-- An instruction other than RND reads none of the inputs: changed before it, they change nothing else. -/
theorem exec_withInputs {i : Instr} (hi : ∀ x nn, i ≠ .rndVxNN x nn) {s t : State} (h : exec i s = .next t) :
    exec i (withInputs k d e n s) = .next (withInputs k d e n t) := by
  cases i with
  | ret =>
    cases hpop : s.pop <;> simp only [exec, execRet, pop_withInputs, hpop] at h ⊢ <;> cases h <;> rfl
  | callAddr nnn =>
    cases hpush : s.push s.pc <;> simp only [exec, execCallAddr, push_withInputs, hpush] at h ⊢ <;> cases h <;> rfl
  | drwVxVyN x y m =>
    cases hrows : opSprite s m <;> simp only [exec, execDrwVxVyN, opSprite_withInputs, hrows] at h ⊢ <;> cases h <;>
      rfl
  | seVxNN | sneVxNN | seVxVy | sneVxVy => cases h; exact congrArg _ (skipIf_withInputs ..)
  | addVxVy | subVxVy | shrVx | subnVxVy | shlVx => cases h; exact congrArg _ (writeFlagResult_withInputs ..)
  | rndVxNN x nn => exact absurd rfl (hi x nn)
  | _ => cases h; rfl

end

theorem withInputs_same {s t : State} (hkey : t.key = s.key) (hdt : t.dt = s.dt) (hst : t.st = s.st)
    (n : Nat) : withInputs s.key s.dt s.st n t = { t with rngDraws := n } := by
  simp [withInputs, ← hkey, ← hdt, ← hst]

/-- No instruction writes a key (R32). -/
theorem exec_key {i : Instr} {s t : State} (h : exec i s = .next t) : t.key = s.key := by
  rcases completesOrRaises_of_exec h with hw | ⟨k, rfl⟩
  · exact hw.key
  · exact raiseFatal_key ..

/-- Settles O14: the draw count is replaced and the keys and timers are given again as they are. -/
theorem onlyRndDependsOnRng : Obligations.OnlyRndDependsOnRng := by
  intro i s t n hi h
  obtain ⟨hdt, hst⟩ := exec_timers h
  have hexec := exec_withInputs s.key s.dt s.st n hi h
  rwa [withInputs_same (exec_key h) hdt hst] at hexec

/-- The state with other keys and timers. -/
def withKeysTimers (k : Vector Bool 16) (d e : Byte) (s : State) : State := { s with key := k, dt := d, st := e }

/-- No instruction reads the keys or the timers; RND reads the draw count, which stays. -/
theorem exec_withKeysTimers (k : Vector Bool 16) (d e : Byte) {i : Instr} {s t : State} (h : exec i s = .next t) :
    exec i (withKeysTimers k d e s) = .next (withKeysTimers k d e t) := by
  by_cases hi : ∃ x nn, i = .rndVxNN x nn
  · obtain ⟨x, nn, rfl⟩ := hi
    cases h
    rfl
  · have hdraws : t.rngDraws = s.rngDraws := (exec_rngDraws h).resolve_right fun hr => hi hr.2
    have hsame : withInputs k d e s.rngDraws t = withKeysTimers k d e t := by rw [← hdraws]; rfl
    rw [← hsame]
    exact exec_withInputs k d e s.rngDraws (fun x nn hx => hi ⟨x, nn, hx⟩) h

/-- Settles O13: the cycle is the same case, as HALT and the fetched word do not depend on the keys and timers. -/
theorem cycleIgnoresKeysAndTimers : Obligations.CycleIgnoresKeysAndTimers := by
  intro s t k d e h
  show step (withKeysTimers k d e s) = .next (withKeysTimers k d e t)
  have hh : (withKeysTimers k d e s).halt = s.halt := rfl
  have hf : fetch (withKeysTimers k d e s) = fetch s := rfl
  rcases step_cases h with ⟨_, hhalt, rfl⟩ | ⟨hrun, hfetch, rfl⟩ | ⟨hrun, w, hfetch, why, hdecode, rfl⟩ |
    ⟨hrun, w, hfetch, i, hdecode, hexec⟩
  · exact step_of_halted (hh.trans hhalt)
  · exact step_of_fetchFault (hh.trans hrun) (hf.trans hfetch)
  · exact step_of_unknown (hh.trans hrun) (hf.trans hfetch) hdecode
  · rw [step_of_instr (hh.trans hrun) (hf.trans hfetch) hdecode]
    exact exec_withKeysTimers k d e hexec

/-! ### The placed word (log 13) -/

theorem tableWord_16 (w : Nat) : tableWord 16 w = BitVec.ofNat 16 w := by
  apply BitVec.eq_of_toNat_eq
  simp [tableWord]

/-- The word placed at PC is fetched: its bytes go to two addresses, PC and PC + 1 mod 4096. -/
theorem fetch_placeWord {s : State} (hwf : Memory.wf s.params s.mem)
    (hok : s.params.addressPolicy = .wrap ∨ s.pc.toNat + 1 < memorySize) (w : Word) :
    fetch (placeWord s w) = some w := by
  have hne : s.pc.toNat % memorySize ≠ (s.pc.toNat + 1) % memorySize := by simp only [memorySize]; omega
  have hfirst := Memory.write_wf hwf (Nat.mod_lt s.pc.toNat (by decide : 0 < memorySize)) (w.extractLsb' 8 8)
  have hhi : (placeWord s w).byteAt (s.pc.toNat % memorySize) = w.extractLsb' 8 8 := by
    rw [placeWord, State.setHalt_byteAt, State.setMem_byteAt, Memory.read_write hfirst.1, if_neg hne,
      Memory.read_write hwf.1, if_pos rfl]
  have hlo : (placeWord s w).byteAt ((s.pc.toNat + 1) % memorySize) = w.extractLsb' 0 8 := by
    rw [placeWord, State.setHalt_byteAt, State.setMem_byteAt, Memory.read_write hfirst.1, if_pos rfl]
  rw [fetch_of_ok (placeWord s w) hok]
  show some (wordOfBytes ((placeWord s w).byteAt (s.pc.toNat % memorySize))
    ((placeWord s w).byteAt ((s.pc.toNat + 1) % memorySize))) = some w
  rw [hhi, hlo, wordOfBytes_bytes]

/-- Settles O15: the placed word is fetched, and the state it is placed in runs. -/
theorem placedWordIsWhatTheNextStepRuns : Obligations.PlacedWordIsWhatTheNextStepRuns := by
  intro s w hwf hok
  have hf : fetch (s.withFetchWord 16 w) = some (BitVec.ofNat 16 w) := by
    rw [← tableWord_16]
    exact fetch_placeWord hwf hok _
  have hrun : (s.withFetchWord 16 w).halt = none := rfl
  cases hd : decode (BitVec.ofNat 16 w) with
  | unknown why => exact step_of_unknown hrun hf hd
  | instr i => exact step_of_instr hrun hf hd

end Sys2Proof.Proofs

namespace Sys2Proof.Proofs

open Sys2Proof Sys2Proof.Machine

/-! ### CLS and DRW (44_display.md) -/

/-- Settles O36: the display is replaced by the blank one, then DIRTY is set. -/
theorem clsClearsEveryPixel : Obligations.ClsClearsEveryPixel := fun s =>
  ⟨_, rfl, Display.blank_get, rfl, (setPix_onlyWrites s _).append (setDirty_onlyWrites _ true)⟩

/-- Settles O38: the address fault is DRW's own error, raised before anything is written. -/
theorem drwAddressFaultHalts : Obligations.DrwAddressFaultHalts := by
  intro x y n s hpolicy hrow
  have hsprite : opSprite s n = none := (State.memReadList_eq_none_iff s n s.i.toNat).2 ⟨hpolicy, hrow⟩
  exact exec_of_ownError ((ownError_drwVxVyN_iff x y n s _).2 ⟨hsprite, rfl⟩)

/-- The bytes of a sprite of n rows at I that can be read (R222). -/
def spriteBytes (s : State) (n : Nat) : List Byte :=
  (List.range n).map fun r => s.byteAt ((s.i.toNat + r) % memorySize)

theorem opSprite_of_readable {s : State} {n : Nat} (h : SpriteReadable s n) : opSprite s n = some (spriteBytes s n) :=
  State.memReadList_of_ok s n s.i.toNat h

theorem spriteBytes_getElem?_eq_some_iff (s : State) (n r : Nat) (row : Byte) :
    (spriteBytes s n)[r]? = some row ↔ r < n ∧ s.byteAt ((s.i.toNat + r) % memorySize) = row := by
  by_cases hr : r < n <;> simp [spriteBytes, hr]

/-- The pixels DRW's rows light are those the sprite lights. -/
theorem rowsLight_spriteBytes_iff (s : State) (x y : Reg) (n : Nat) (px : Fin 64) (py : Fin 32) :
    rowsLight (opColumn s x) (opRow s y) (spriteBytes s n) px py ↔ spriteLights s x y n px py := by
  constructor
  · rintro ⟨r, row, hrow, hy, hl⟩
    obtain ⟨hr, rfl⟩ := (spriteBytes_getElem?_eq_some_iff s n r row).1 hrow
    obtain ⟨b, hb, hbit, hx⟩ := (rowLights_iff _ _ _).1 hl
    exact ⟨r, b, hr, hb, hbit, congrArg Fin.val hx, congrArg Fin.val hy⟩
  · rintro ⟨r, b, hr, hb, hbit, hx, hy⟩
    exact ⟨r, _, (spriteBytes_getElem?_eq_some_iff s n r _).2 ⟨hr, rfl⟩, Fin.ext hy,
      (rowLights_iff _ _ _).2 ⟨b, hb, hbit, Fin.ext hx⟩⟩

/-- VF as the flag byte of a condition that decides `c`. -/
theorem holdsFlag_of_reg {t : State} {flag : Bool} {c : Prop} (ht : t.reg regF = flagByte flag)
    (hc : flag = true ↔ c) : HoldsFlag c t := by
  rw [HoldsFlag, ht, flagByte_eq_one_iff, flagByte_eq_zero_iff, ← Bool.not_eq_true, hc]
  exact ⟨id, id⟩

/-- Settles O37: drawing the rows inverts exactly the lit pixels, and the collision is a lit pixel that was on, so one
that goes off. -/
theorem drwXorsTheSprite : Obligations.DrwXorsTheSprite := by
  intro x y n s hn hreadable
  have hlen : (spriteBytes s n).length ≤ 32 := by
    have : n < 16 := of_decide_eq_true hn
    simp [spriteBytes]
    omega
  have hget := fun px py => drawRows_get (opColumn s x) (spriteBytes s n) (opRow s y) hlen px py (s.pix, false)
  simp only [rowsLight_spriteBytes_iff] at hget
  have hcoll := drawRows_collision_iff (opColumn s x) (spriteBytes s n) (opRow s y) hlen (s.pix, false)
  simp only [rowsLight_spriteBytes_iff, reduceCtorEq, false_or] at hcoll
  refine ⟨_, exec_drwVxVyN_of_sprite (opSprite_of_readable hreadable),
    (((setPix_onlyWrites s _).append (setReg_onlyWrites _ _ _)).append (setDirty_onlyWrites _ _)).mono (by simp), rfl,
    fun px py => (hget px py).1, fun px py => (hget px py).2,
    holdsFlag_of_reg (State.setReg_reg_same _ _ _) (hcoll.trans ?_)⟩
  constructor
  · rintro ⟨px, py, hlit, hon⟩
    exact ⟨px, py, hon, ((hget px py).1 hlit).trans (by simp [hon])⟩
  · rintro ⟨px, py, hon, hoff⟩
    refine ⟨px, py, ?_, hon⟩
    by_contra hdark
    exact absurd (((hget px py).2 hdark).symm.trans hoff) (by simp [hon])

theorem spriteLights_congr {s t : State} {x y : Reg} (hx : t.reg x = s.reg x) (hy : t.reg y = s.reg y) (hi : t.i = s.i)
    (hbytes : ∀ a, t.byteAt a = s.byteAt a) (n : Nat) (px : Fin 64) (py : Fin 32) :
    spriteLights t x y n px py ↔ spriteLights s x y n px py := by
  simp only [spriteLights, hx, hy, hi, hbytes]

/-- Settles O39: neither the sprite nor its place changes with the first drawing, so the second inverts the same pixels
back. -/
theorem drawingTwiceRestoresTheDisplay : Obligations.DrawingTwiceRestoresTheDisplay := by
  intro x y n s hn hreadable hx hy
  obtain ⟨u, hu, huw, -, hulit, hudark, -⟩ := drwXorsTheSprite x y n s hn hreadable
  have hi : u.i = s.i := huw.i (by simp)
  have hureadable : SpriteReadable u n := by rwa [SpriteReadable, huw.params, hi]
  obtain ⟨t, ht, -, -, htlit, htdark, htflag⟩ := drwXorsTheSprite x y n u hn hureadable
  have hlights := fun px py =>
    spriteLights_congr (huw.reg x (by simp [hx])) (huw.reg y (by simp [hy])) hi huw.byteAt n px py
  simp only [hlights] at htlit htdark
  have hpix : t.pix = s.pix := Display.ext_get fun px py => by
    by_cases hlit : spriteLights s x y n px py
    · rw [htlit px py hlit, hulit px py hlit, Bool.not_not]
    · rw [htdark px py hlit, hudark px py hlit]
  have hflag : (∃ px py, u.pix.get px py = true ∧ t.pix.get px py = false) ↔
      ∃ px py, spriteLights s x y n px py ∧ s.pix.get px py = false := by
    rw [hpix]
    constructor
    · rintro ⟨px, py, hon, hoff⟩
      refine ⟨px, py, ?_, hoff⟩
      by_contra hdark
      exact absurd ((hudark px py hdark).symm.trans hon) (by simp [hoff])
    · rintro ⟨px, py, hlit, hoff⟩
      exact ⟨px, py, (hulit px py hlit).trans (by simp [hoff]), hoff⟩
  refine ⟨t, ?_, hpix, by rwa [hflag] at htflag⟩
  rw [execAll_cons_of_next hu, execAll_cons_of_next ht]
  rfl

/-! ### Who writes the display (R223), and the view of it (R48) -/

/-- CLS and DRW are the instructions whose rule lists the pixels. -/
theorem pix_mem_partsWritten_iff (i : Instr) :
    Part.pix ∈ partsWritten i ↔ i = .cls ∨ ∃ x y n, i = .drwVxVyN x y n := by
  cases i <;> simp [partsWritten]

/-- An instruction that changes the display is CLS or DRW. -/
theorem exec_pix {i : Instr} {s t : State} (h : exec i s = .next t) (hpix : t.pix ≠ s.pix) :
    i = .cls ∨ ∃ x y n, i = .drwVxVyN x y n := by
  rw [← pix_mem_partsWritten_iff]
  by_contra hi
  rcases completesOrRaises_of_exec h with hw | ⟨k, rfl⟩
  · exact hpix (hw.pix hi)
  · exact hpix (raiseFatal_pix ..)

/-- A step that changes the display runs CLS or DRW. -/
theorem step_pix {s t : State} (h : step s = .next t) (hpix : t.pix ≠ s.pix) :
    ∃ w, fetch s = some w ∧ (decode w = .instr .cls ∨ ∃ x y n, decode w = .instr (.drwVxVyN x y n)) := by
  rcases step_cases h with ⟨_, _, rfl⟩ | ⟨_, _, rfl⟩ | ⟨_, _, _, _, _, rfl⟩ | ⟨_, w, hfetch, i, hdecode, hexec⟩
  · exact absurd rfl hpix
  · exact absurd (raiseFatal_pix ..) hpix
  · exact absurd (State.advancePc_pix s) hpix
  · refine ⟨w, hfetch, ?_⟩
    rcases exec_pix hexec hpix with rfl | ⟨x, y, n, rfl⟩
    · exact .inl hdecode
    · exact .inr ⟨x, y, n, hdecode⟩

theorem load_pix (bytes : List Byte) (s : State) : (load bytes s).pix = s.pix := by
  unfold load
  split <;> rfl

theorem tick_pix (s : State) : (tick s).pix = s.pix := by
  obtain ⟨d, e, h⟩ := tick_eq_setTimers s
  rw [h, State.setTimers_pix]

/-- Settles O40: the operations beside Reset and the cycle do not write the display. -/
theorem onlyClsAndDrwWriteTheDisplay : Obligations.OnlyClsAndDrwWriteTheDisplay := by
  intro op s t h hpix
  cases op with
  | reset => exact .inl rfl
  | cycle => exact .inr ⟨rfl, step_pix h hpix⟩
  | load bytes => cases h; exact absurd (load_pix bytes s) hpix
  | tick => cases h; exact absurd (tick_pix s) hpix
  | setKey | clearDirty | view => cases h; exact absurd rfl hpix

/-- Rows of 64, one after another: entry x of row y is at 64y + x. -/
theorem getElem?_flatMap_rows (rows : List (Vector Bool 64)) {x y : Nat} (hx : x < 64) (hy : y < rows.length) :
    (rows.flatMap fun row => row.toList)[64 * y + x]? = some (rows[y][x]) := by
  induction rows generalizing y with
  | nil => simp at hy
  | cons row rows ih =>
    rw [List.flatMap_cons]
    cases y with
    | zero =>
      rw [List.getElem?_append_left (by simp; omega)]
      simp [hx]
    | succ y =>
      rw [List.getElem?_append_right (by simp; omega)]
      have : 64 * (y + 1) + x - row.toList.length = 64 * y + x := by simp; omega
      rw [this, ih (by simpa using hy)]
      rfl

/-- Settles O41: the display is 32 such rows. -/
theorem flattenedPixelIndex : Obligations.FlattenedPixelIndex := by
  intro s x y
  rw [flattenDisplay, getElem?_flatMap_rows _ x.isLt (by simp)]
  rfl

end Sys2Proof.Proofs

namespace Sys2Proof.Proofs

open Sys2Proof Sys2Proof.Machine

/-! ### Load (70_reset_and_hazards.md R285, R287) -/

/-- A load leaves every byte below 0x200 and past the buffer. -/
theorem byteAt_load_outside {bytes : List Byte} {s : State} (hwf : Memory.wf s.params s.mem)
    {a : Nat} (ha : a < loadBase ∨ loadBase + bytes.length ≤ a) :
    (load bytes s).byteAt a = s.byteAt a := by
  by_cases hfits : bytes.length ≤ loadCapacity
  · rw [load_of_fits hfits, State.setMem_byteAt, Memory.read_writeList bytes hwf.1, dif_neg (by omega)]
    rfl
  · rw [load_of_tooLong (by omega)]

/-- Settles O50: each byte the buffer covers is the one at its offset, every other one is left. -/
theorem loadCopiesTheBufferOnly : Obligations.LoadCopiesTheBufferOnly := by
  intro bytes s hwf
  refine ⟨fun hfits => ⟨loadResult_of_fits hfits, ⟨_, load_of_fits hfits s⟩, fun k hk => ?_,
    fun a ha => byteAt_load_outside hwf ha⟩, fun hlong => ⟨loadResult_of_tooLong hlong, load_of_tooLong hlong s⟩⟩
  have hoff : loadBase + k - loadBase < bytes.length := by omega
  have hread := byteAt_load hwf hfits (Nat.le_add_right loadBase k) hoff
  simp only [Nat.add_sub_cancel_left] at hread
  rw [List.getElem?_eq_getElem hk, ← hread]
  rfl

/-! ### Tick, SetKey and HALT (60_exceptions.md R260, R261; 10_state.md R46) -/

theorem tick_of_running {s : State} (hrun : s.halt = none) :
    tick s = s.setTimers (countDown s.dt) (countDown s.st) := by
  simp [tick, hrun]

/-- Settles O51: a tick is one write of the two counted-down timers. -/
theorem tickDecrementsEachTimer : Obligations.TickDecrementsEachTimer := by
  intro s hrun
  rw [tick_of_running hrun]
  exact ⟨countDown_toNat s.dt, countDown_toNat s.st, rfl⟩

theorem tick_halt (s : State) : (tick s).halt = s.halt := by
  obtain ⟨d, e, h⟩ := tick_eq_setTimers s
  rw [h, State.setTimers_halt]

/-- Settles O52: by induction on the number of ticks. -/
theorem timersCountDownIndependently : Obligations.TimersCountDownIndependently := by
  intro n
  induction n with
  | zero => exact fun s _ => ⟨rfl, rfl⟩
  | succ n ih =>
    intro s hrun
    obtain ⟨hdt, hst, -⟩ := tickDecrementsEachTimer s hrun
    obtain ⟨ihdt, ihst⟩ := ih (tick s) ((tick_halt s).trans hrun)
    rw [Function.iterate_succ_apply, ihdt, ihst, hdt, hst]
    omega

/-- Settles O54: the key vector is written at one index, HALT or not. -/
theorem setKeySetsOneKey : Obligations.SetKeySetsOneKey := by
  intro k b s
  refine ⟨by simp [setKey], fun j hj => ?_, rfl⟩
  simp [setKey, Fin.val_ne_of_ne hj.symm]

theorem load_halt (bytes : List Byte) (s : State) : (load bytes s).halt = s.halt := by
  unfold load
  split <;> rfl

/-- Settles O56: a halted machine's cycle changes nothing, and the other operations do not write HALT. -/
theorem onlyResetClearsHalt : Obligations.OnlyResetClearsHalt := by
  intro op s t h hhalt hstep
  cases op with
  | reset => cases hstep; rfl
  | cycle =>
    rw [hostStep, step_of_halted hhalt] at hstep
    cases hstep
    exact hhalt
  | load bytes => cases hstep; exact (load_halt bytes s).trans hhalt
  | tick => cases hstep; exact (tick_halt s).trans hhalt
  | setKey | clearDirty | view => cases hstep; exact hhalt

/-! ### Reset (10_state.md R37, R27) -/

/-- Both states of R37 are the reset state with parameters and a draw count (log 1, log 6). -/
theorem eq_reset_with {r : State} (h : r = State.reset ∨ ∃ s : State, r = s.resetMachine) :
    ∃ p n, r = { State.reset with params := p, rngDraws := n } := by
  rcases h with rfl | ⟨s, rfl⟩
  · exact ⟨_, _, rfl⟩
  · exact ⟨_, _, rfl⟩

/-- Settles O47: the fields are those of the reset state. -/
theorem resetValues : Obligations.ResetValues := by
  intro r h
  obtain ⟨p, n, rfl⟩ := eq_reset_with h
  refine ⟨fun x => ?_, rfl, rfl, rfl, fun k => ?_, rfl, rfl, Display.blank_get, rfl, fun k => ?_, rfl⟩
  all_goals exact Vector.getElem_replicate _

/-- No byte outside the font table's 80 resets to anything but 0x00 (R37). -/
theorem resetByte_outside_font (p : Params) {a : Nat} (ha : a < p.fontBase.toNat ∨ p.fontBase.toNat + 80 ≤ a) :
    resetByte p a = 0x00#8 := by
  have hout : ¬ (p.fontBase.toNat ≤ a ∧ a - p.fontBase.toNat < 80) := by omega
  unfold resetByte
  split_ifs with hlow hge hlt
  · exact absurd ⟨hge, hlt⟩ hout
  all_goals rfl

/-- Settles O48: the memory is empty, so every address reads its reset contents. -/
theorem resetMemoryHoldsTheFont : Obligations.ResetMemoryHoldsTheFont := by
  intro s h hp
  obtain ⟨p, n, rfl⟩ := eq_reset_with h
  exact ⟨resetByte_font p hp, fun a ha => resetByte_outside_font p ha⟩

/-! ### Canonical memories (log 14) -/

/-- An entry of a memory is read at its address. -/
theorem read_of_mem (p : Params) {m : Memory} (hm : m.Pairwise fun c d => c.1 < d.1) {c : Host.Cell} (hc : c ∈ m) :
    Memory.read p m c.1 = c.2 := by
  induction m with
  | nil => cases hc
  | cons d m ih =>
    obtain ⟨hlt, hm⟩ := List.pairwise_cons.1 hm
    rw [Memory.read_cons]
    rcases List.mem_cons.1 hc with rfl | hc
    · rw [if_pos rfl]
    · rw [if_neg (Nat.ne_of_gt (hlt c hc)), ih hm hc]

/-- What a read does not find in an entry is the reset contents. -/
theorem mem_of_read_ne_resetByte {p : Params} {m : Memory} {a : Nat} (h : Memory.read p m a ≠ resetByte p a) :
    (a, Memory.read p m a) ∈ m := by
  induction m with
  | nil => exact absurd rfl h
  | cons d m ih =>
    rw [Memory.read_cons] at h ⊢
    split at h
    · next ha => rw [if_pos ha, ha]; exact List.mem_cons_self
    · next ha => rw [if_neg ha]; exact List.mem_cons_of_mem _ (ih h)

/-- The entries of a canonical memory are what its reads tell. -/
theorem mem_iff_read {p : Params} {m : Memory} (hm : Memory.wf p m) (c : Host.Cell) :
    c ∈ m ↔ c.1 < memorySize ∧ Memory.read p m c.1 = c.2 ∧ c.2 ≠ resetByte p c.1 := by
  constructor
  · intro hc
    obtain ⟨hlt, hne⟩ := hm.2 c hc
    exact ⟨hlt, read_of_mem p hm.1 hc, hne⟩
  · rintro ⟨-, hread, hne⟩
    have := mem_of_read_ne_resetByte (hread ▸ hne)
    rwa [hread] at this

/-- Settles O60: memories that read alike have the same entries, and strictly rising addresses fix their order. -/
theorem canonicalMemoryIsDeterminedByReads : Obligations.CanonicalMemoryIsDeterminedByReads := by
  intro p m m' hm hm' hread
  have hmem : ∀ c, c ∈ m ↔ c ∈ m' := fun c => by
    rw [mem_iff_read hm, mem_iff_read hm']
    exact and_congr_right fun hc => by rw [hread c.1 hc]
  have : Std.Irrefl fun c d : Host.Cell => c.1 < d.1 := ⟨fun c => Nat.lt_irrefl c.1⟩
  have : Std.Antisymm fun c d : Host.Cell => c.1 < d.1 := ⟨fun _ _ h h' => absurd h (Nat.lt_asymm h')⟩
  exact hm.1.eq_of_mem_iff hm'.1 hmem

end Sys2Proof.Proofs

namespace Sys2Proof.Proofs

open Sys2Proof Sys2Proof.Machine

/-! ### The invariant, kept by every step -/

/-- A frame never names MEM, the timers or the parameters, so what is framed keeps the invariant where it leaves I and
HALT in order. -/
theorem machineInv_of_onlyWrites {ps : List Part} {s t : State} (hs : MachineInv s) (hw : OnlyWrites ps s t)
    (hi : t.i.toNat < memorySize) (hh : HaltAgrees t) : MachineInv t where
  memWf := by rw [hw.params, hw.mem]; exact hs.memWf
  reserved a ha := by rw [hw.byteAt, hw.params]; exact hs.reserved a ha
  index := hi
  timers := by rw [hw.dt, hw.st]; exact hs.timers
  halt := hh

theorem haltAgrees_of_running {s : State} (h : s.halt = none) : HaltAgrees s := by
  simp [HaltAgrees, h]

/-- An own error is raised in a state its record agrees with. -/
theorem haltAgrees_of_ownError {i : Instr} {s : State} {k : FatalKind} (h : ownError i s = some k) (ia : Word) :
    HaltAgrees (raiseFatal k ia s) := by
  cases i
  case callAddr nnn =>
    obtain ⟨hsp, rfl⟩ := (ownError_callAddr_iff nnn s k).1 h
    exact hsp
  case ret =>
    obtain ⟨hsp, rfl⟩ := (ownError_ret_iff s k).1 h
    exact hsp
  case drwVxVyN x y n =>
    obtain ⟨hsprite, rfl⟩ := (ownError_drwVxVyN_iff x y n s k).1 h
    exact ((State.memReadList_eq_none_iff s n s.i.toNat).1 hsprite).1
  all_goals cases h

/-- HALT is in no instruction's frame (R119). -/
theorem halt_not_mem_partsWritten (i : Instr) : Part.halt ∉ partsWritten i := by
  cases i <;> simp [partsWritten]

/-- LD I is the one instruction whose rule lists I (R25). -/
theorem i_mem_partsWritten_iff (i : Instr) : Part.i ∈ partsWritten i ↔ ∃ nnn, i = .ldIAddr nnn := by
  cases i <;> simp [partsWritten]

/-- I stays an address of the space: LD I writes 12 bits, nothing else writes I (R25). -/
theorem exec_index {i : Instr} {s t : State} (h : exec i s = .next t) (hs : s.i.toNat < memorySize) :
    t.i.toNat < memorySize := by
  by_cases hi : Part.i ∈ partsWritten i
  · obtain ⟨nnn, rfl⟩ := (i_mem_partsWritten_iff i).1 hi
    cases h
    rw [State.setI_i, opAddr_toNat]
    exact nnn.isLt
  · rcases completesOrRaises_of_exec h with hw | ⟨k, rfl⟩
    · rw [hw.i hi]; exact hs
    · exact hs

/-- An instruction that runs in a state that meets the invariant keeps it. -/
theorem exec_machineInv {i : Instr} {s t : State} (hs : MachineInv s) (hrun : s.halt = none)
    (h : exec i s = .next t) : MachineInv t := by
  have hindex := exec_index h hs.index
  rcases exec_cases h with ⟨-, hw⟩ | ⟨k, hk, rfl⟩
  · exact machineInv_of_onlyWrites hs hw hindex
      (haltAgrees_of_running ((hw.halt (halt_not_mem_partsWritten i)).trans hrun))
  · exact machineInv_of_onlyWrites hs (raiseFatal_onlyWrites k s.ia s) hindex (haltAgrees_of_ownError hk s.ia)

theorem advancePc_machineInv {s : State} (hs : MachineInv s) : MachineInv s.advancePc :=
  machineInv_of_onlyWrites hs (advancePc_onlyWrites s) hs.index hs.halt

/-- A step keeps the invariant: a fetch fault is raised only under the policy it names (R63). -/
theorem step_machineInv {s t : State} (hs : MachineInv s) (h : step s = .next t) : MachineInv t := by
  rcases step_cases h with ⟨_, _, rfl⟩ | ⟨_, hf, rfl⟩ | ⟨_, _, _, _, _, rfl⟩ | ⟨hrun, _, _, i, _, hexec⟩
  · exact hs
  · exact machineInv_of_onlyWrites hs (raiseFatal_onlyWrites ..) hs.index ((fetch_eq_none_iff s).1 hf).1
  · exact advancePc_machineInv hs
  · exact exec_machineInv (advancePc_machineInv hs) hrun hexec

/-- Settles O58: by the cases of a step. -/
theorem stepKeepsTheInvariant : Obligations.StepKeepsTheInvariant := fun _ _ hs h => step_machineInv hs h

/-! ### The invariant at reset, and kept by every operation of the host -/

/-- The reset state meets the invariant, whatever the parameters and the draw count (log 1, log 6). -/
theorem reset_machineInv (p : Params) (n : Nat) : MachineInv { State.reset with params := p, rngDraws := n } where
  memWf := State.reset_mem_wf p
  reserved _ _ := rfl
  index := (by decide : (0x0000#16).toNat < memorySize)
  timers := ⟨rfl, rfl⟩
  halt := trivial

/-- Settles O57: both states are the reset state with parameters and a draw count. -/
theorem resetMeetsTheInvariant : Obligations.ResetMeetsTheInvariant :=
  ⟨reset_machineInv _ _, fun s => reset_machineInv s.params s.rngDraws⟩

/-- A load ends below 0x1000 and starts above the reserved region (R68, R285). -/
theorem load_machineInv (bytes : List Byte) {s : State} (hs : MachineInv s) : MachineInv (load bytes s) := by
  by_cases hfits : bytes.length ≤ loadCapacity
  · have hreserved : ∀ a, a < loadBase → (load bytes s).byteAt a = resetByte s.params a := fun a ha =>
      (byteAt_load_outside hs.memWf (.inl ha)).trans (hs.reserved a ha)
    rw [load_of_fits hfits] at hreserved ⊢
    have hend : loadBase + bytes.length ≤ memorySize := by
      simp only [loadCapacity, loadBase, memorySize] at *
      omega
    exact ⟨Memory.writeList_wf bytes hs.memWf hend, hreserved, hs.index, hs.timers, hs.halt⟩
  · rw [load_of_tooLong (by omega)]
    exact hs

/-- A tick leaves timers that are 0 at 0 (R260). -/
theorem tick_machineInv {s : State} (hs : MachineInv s) : MachineInv (tick s) := by
  unfold tick
  cases hh : s.halt with
  | some r => exact hs
  | none =>
    obtain ⟨hdt, hst⟩ := hs.timers
    exact ⟨hs.memWf, hs.reserved, hs.index, by simp [hdt, hst], hs.halt⟩

/-- Every operation of the host keeps the invariant. -/
theorem hostStep_machineInv {op : HostOp} {s t : State} (hs : MachineInv s) (h : hostStep op s = .next t) :
    MachineInv t := by
  cases op with
  | reset => cases h; exact reset_machineInv s.params s.rngDraws
  | load bytes => cases h; exact load_machineInv bytes hs
  | cycle => exact step_machineInv hs h
  | tick => cases h; exact tick_machineInv hs
  | setKey k b => cases h; exact ⟨hs.memWf, hs.reserved, hs.index, hs.timers, hs.halt⟩
  | clearDirty => cases h; exact machineInv_of_onlyWrites hs (setDirty_onlyWrites s false) hs.index hs.halt
  | view => cases h; exact hs

/-- A run's first operation answers, and the rest runs from its answer. -/
theorem hostRun_cons_next {op : HostOp} {rest : List HostOp} {s t : State} (h : hostRun (op :: rest) s = .next t) :
    ∃ u, hostStep op s = .next u ∧ hostRun rest u = .next t := by
  cases hu : hostStep op s with
  | next u => exact ⟨u, rfl, by simpa [hostRun, hu] using h⟩
  | fault r => simp [hostRun, hu] at h
  | refused r => simp [hostRun, hu] at h

/-- Settles O59: by induction on the list of operations. -/
theorem everyInterleavingKeepsTheInvariant : Obligations.EveryInterleavingKeepsTheInvariant := by
  intro ops
  induction ops with
  | nil => intro s t hs h; cases h; exact hs
  | cons op rest ih =>
    intro s t hs h
    obtain ⟨u, hu, hrest⟩ := hostRun_cons_next h
    exact ih u t (hostStep_machineInv hs hu) hrest

end Sys2Proof.Proofs
